-- ==== Sys2Proof/Word.lean ====
section
/-!
DEFINITION. The plain words of the BSPU: a register, a byte, and the two closed sets of names an
operand field selects from (a word width, a memory format).
-/

namespace Sys2Proof

/-- A register or a command word: every register of the BSPU is 32 bits wide
(`00_scope.md` R9, `30_encoding.md` R80). -/
abbrev Reg32 := BitVec 32

/-- One byte of MEM (`10_state.md` R43). -/
abbrev Byte := BitVec 8

/-- The word width `W` of a packed body, chosen per command by WSEL
(`00_scope.md` R6, `30_encoding.md` R82). -/
inductive WordWidth where
  | w8
  | w16
  | w32
  | w64
  deriving DecidableEq, Repr

/-- The memory format of a logical bit sequence, chosen per command by FMT
(`30_encoding.md` R84): one byte per bit (LANE, R86) or packed words (STORE, R87). -/
inductive MemFormat where
  | lane
  | store
  deriving DecidableEq, Repr

end Sys2Proof
end

