-- ==== Sys2Proof/Config.lean ====
section
/-!
DEFINITION. What a platform fixes (the named parameters of the spec) and the free values: the
constants with no body that stand where the spec says a value is a draw.
-/

namespace Sys2Proof

/-- The platform parameters a model takes (`00_scope.md` R8, R9, R19). They stand in `State` as one
plain record so that a statement about every state is a statement about every platform; no step
changes them. -/
structure Params where
  /-- `ADDR_W`: MEM has `2 ^ addrW` bytes (`00_scope.md` R8). -/
  addrW : Nat
  /-- `BSPU_BASE`: the bus address of the register window (`00_scope.md` R9, `20_memory.md` R68). -/
  base : Nat
  /-- Ranges (first address, size) of the engine's port behind which the platform has put something
  other than plain memory: the register window, I/O, a hole (`20_memory.md` R60, R66). -/
  nonRam : List (Nat × Nat)
  deriving DecidableEq, Repr

/-- The parameters are ones the spec admits: `8 <= ADDR_W <= 32` (`00_scope.md` R8). -/
abbrev Params.Legal (p : Params) : Prop := 8 ≤ p.addrW ∧ p.addrW ≤ 32

/-- The default platform: `ADDR_W = 32` (`00_scope.md` R8) and plain memory behind the whole port
(`20_memory.md` R66). The spec gives `BSPU_BASE` no value; the 0 here is a DESIGN CHOICE (log
entry 2) on which no statement rests. -/
def Params.standard : Params := ⟨32, 0, []⟩

/-- `IRQ_LINE`: which line of the platform's interrupt controller IRQ is wired to
(`60_exceptions.md` R212). A platform parameter with no value in the spec. -/
opaque Config.irqLine : Nat

/-- Free value (log entries 7 and 8): the byte drawn at a draw counter (`20_memory.md` R71). -/
opaque Config.freeByte : Nat → BitVec 8

/-- Free value (log entries 7 and 8): the choice, drawn at a draw counter, between a byte's old and
its new value (`20_memory.md` R71, `70_reset_and_hazards.md` R231); true picks the new one. -/
opaque Config.freeChoice : Nat → Bool

/-- Free value (log entry 7): LEN after a raced command (`20_memory.md` R71). -/
opaque Config.freeLen : Nat → BitVec 32

/-- Free value (log entry 7): RES0 after a raced command (`20_memory.md` R71). -/
opaque Config.freeRes0 : Nat → BitVec 32

/-- Free value (log entry 7): RES1 after a raced command (`20_memory.md` R71). -/
opaque Config.freeRes1 : Nat → BitVec 32

/-- Free value (log entry 7): ECODE after a raced command (`20_memory.md` R71). Three bits, since the
engine never writes a code above 7 (`10_state.md` R24). -/
opaque Config.freeCode : Nat → BitVec 3

end Sys2Proof
end

