-- ==== Sys2Proof/Syntax.lean ====
section
/-!
DEFINITION. The commands of the BSPU: one constructor per row of `spec/opcode_table.json`
(`30_encoding.md` R97), each with exactly the fields its row lists.
-/

namespace Sys2Proof

/-- A legal command. Fields a command does not take have no place here: a command word that sets one
is illegal (`30_encoding.md` R95) and decodes to no `Instr`. -/
inductive Instr where
  /-- NOP (`44_control.md` R190). -/
  | nop
  /-- LENC (`40_length_codec.md` R122). -/
  | lenc
  /-- LDEC (`40_length_codec.md` R125). -/
  | ldec
  /-- RBYTES (`41_padding_calculator.md` R142): WSEL. -/
  | rbytes (w : WordWidth)
  /-- PACK (`42_bit_packer.md` R152): WSEL, FMT. -/
  | pack (w : WordWidth) (fmt : MemFormat)
  /-- UNPACK (`42_bit_packer.md` R156): WSEL, STRICT, FMT. -/
  | unpack (w : WordWidth) (strict : Bool) (fmt : MemFormat)
  /-- ENCODE (`43_bitseq_codec.md` R172): WSEL, FMT. -/
  | encode (w : WordWidth) (fmt : MemFormat)
  /-- DECODE (`43_bitseq_codec.md` R176): WSEL, STRICT, FMT. -/
  | decode (w : WordWidth) (strict : Bool) (fmt : MemFormat)
  deriving DecidableEq, Repr

end Sys2Proof
end

