-- ==== Sys2Proof/Machine/State.lean ====
section
/-!
DEFINITION. The state of the BSPU and of what stands around it: the registers of `10_state.md`, MEM,
the platform's parameters, the input line of reset, and the moves of the agents of `00_scope.md` R19.
-/

namespace Sys2Proof.Machine

/-- MEM as address and byte pairs (`10_state.md` R43): addresses strictly rising, no entry equal to
what an unlisted address reads as. -/
abbrev Memory := List Host.Cell

/-- The error codes 1 to 7 of `60_exceptions.md` R200, in its order. -/
inductive ErrorCode where
  | truncatedLengthPrefix
  | truncatedBody
  | nonZeroPadding
  | lengthOverflow
  | illegalCommand
  | addressRange
  | regionOverlap
  deriving DecidableEq, Repr

/-- The registers of the window (`10_state.md` R20); `reserved` is any of the offsets 0x24 to 0x3C
(R33). -/
inductive Reg where
  | cmd
  | status
  | ctrl
  | len
  | src
  | srcAvail
  | dst
  | res0
  | res1
  | reserved
  deriving DecidableEq, Repr

/-- One move of one agent (`00_scope.md` R19). -/
inductive Move where
  /-- The engine's turn (`60_exceptions.md` R204). -/
  | engine
  /-- The host reads `size` bytes of the register window at a bus address (`10_state.md` R34, R37). -/
  | regRead (addr size : Nat)
  /-- The host writes `size` bytes of the register window at a bus address (`10_state.md` R34). -/
  | regWrite (addr size : Nat) (value : Reg32)
  /-- A bus master reads one byte of MEM (`20_memory.md` R60). -/
  | memRead (addr : Nat)
  /-- A bus master writes one byte of MEM (`20_memory.md` R60). -/
  | memWrite (addr : Nat) (value : Byte)
  /-- The reset input is asserted (`70_reset_and_hazards.md` R230). -/
  | assertReset
  /-- The reset input is released (`70_reset_and_hazards.md` R230). -/
  | releaseReset
  deriving DecidableEq, Repr

/-- What the host's last read returned. -/
inductive Reply where
  | nothing
  | reg (value : Reg32)
  | byte (value : Byte)
  deriving DecidableEq, Repr

/-- What a command that ends without an error writes (`10_state.md` R40): its output region, LEN if it
writes LEN, RES0 and RES1 if it writes them. -/
structure Effect where
  addr : Nat
  bytes : List Byte
  len : Option Reg32
  res : Option (Reg32 × Reg32)
  deriving DecidableEq, Repr

/-- Why the model stops with a fault. The hardware has no fault: its errors are completion codes
(`60_exceptions.md` R206). -/
inductive Fault where
  /-- Raised by a `memRead` or `memWrite` move at an address outside `0 .. 2^ADDR_W - 1`, which does
  not exist (`20_memory.md` R60). Safe: the model stops. -/
  | noSuchAddress
  deriving DecidableEq, Repr

/-- Why the model refuses a move. -/
inductive Refusal where
  /-- A command with no meaning yet. No arm of `exec` answers so. Safe. -/
  | notModelled (mnemonic : String)
  /-- Raised by a `regRead` or `regWrite` move that is not 32 bits wide, aligned and inside the window:
  the spec gives it no meaning and asks a model to refuse it (`10_state.md` R34). Safe. -/
  | registerAccess
  /-- Raised when the engine's command, or a bus master's byte access, may touch an address where the
  platform has something other than plain memory (`20_memory.md` R60, R66; log entry 13). Safe. -/
  | notPlainMemory
  deriving DecidableEq, Repr

/-- The state of the BSPU, its MEM and its surroundings. -/
structure State where
  /-- CMD, the latched command word (`10_state.md` R23, R38). -/
  cmd : Reg32
  /-- STATUS.BUSY (`10_state.md` R24). -/
  busy : Bool
  /-- STATUS.DONE (`10_state.md` R24). -/
  done : Bool
  /-- STATUS.OVF (`10_state.md` R24). -/
  ovf : Bool
  /-- STATUS.ECODE (`10_state.md` R24); STATUS.ERR is a function of it. -/
  ecode : BitVec 4
  /-- CTRL.IE (`10_state.md` R26). -/
  ie : Bool
  /-- LEN (`10_state.md` R27). -/
  len : Reg32
  /-- SRC (`10_state.md` R28). -/
  src : Reg32
  /-- SRC_AVAIL (`10_state.md` R29). -/
  srcAvail : Reg32
  /-- DST (`10_state.md` R30). -/
  dst : Reg32
  /-- RES0 (`10_state.md` R31). -/
  res0 : Reg32
  /-- RES1 (`10_state.md` R32). -/
  res1 : Reg32
  /-- MEM (`10_state.md` R43). -/
  mem : Memory
  /-- The platform's parameters (`00_scope.md` R19; log entry 2). -/
  params : Params
  /-- The level of the reset input: true while asserted (`70_reset_and_hazards.md` R230). -/
  resetLine : Bool
  /-- The moves the agents make next, oldest first (log entry 3). -/
  moves : List Move
  /-- What the host's last read returned (`10_state.md` R37; log entry 5). -/
  reply : Reply
  /-- The host has breached the duty of `20_memory.md` R71 during the running command. -/
  raced : Bool
  /-- The counter at which the next free value is drawn (log entry 7). -/
  draws : Nat
  deriving DecidableEq, Repr

/-- The state right after reset is released (`10_state.md` R44), on the default platform, with nothing
listed in MEM (log entry 1) and no agent about to move. -/
def State.reset : State where
  cmd := 0
  busy := false
  done := false
  ovf := false
  ecode := 0
  ie := false
  len := 0
  src := 0
  srcAvail := 0
  dst := 0
  res0 := 0
  res1 := 0
  mem := []
  params := Params.standard
  resetLine := false
  moves := []
  reply := .nothing
  raced := false
  draws := 0

end Sys2Proof.Machine
end

