-- ==== Sys2Proof/Machine/Operands.lean ====
section
/-!
DEFINITION. The operand forms: widths, byte sequences, the sizes of regions, where a logical bit sits
in a body, and the two memory formats of a bit sequence (`00_scope.md` R12, R17; `30_encoding.md`
R86 to R92; `42_bit_packer.md` R150 to R154). Everything is on unbounded naturals (`00_scope.md` R11).
-/

namespace Sys2Proof.Machine

/-- `W` in bits (`30_encoding.md` R82). -/
def wbits : WordWidth → Nat
  | .w8 => 8
  | .w16 => 16
  | .w32 => 32
  | .w64 => 64

/-- `B = W / 8`, the bytes of a word (`00_scope.md` R6). -/
def wbytes (w : WordWidth) : Nat := wbits w / 8

/-- Division rounding up, for `b > 0` (`00_scope.md` R11). -/
def cdiv (a b : Nat) : Nat := (a + b - 1) / b

/-- The words of a body of `n` bits. -/
def wordCount (n : Nat) (w : WordWidth) : Nat := cdiv n (wbits w)

/-- `required_bytes(n, W)`, the one footprint function (`41_padding_calculator.md` R140, R141). -/
def requiredBytes (n : Nat) (w : WordWidth) : Nat := wordCount n w * wbytes w

/-! ## Little-endian bytes (`00_scope.md` R12) -/

/-- `le(s)`: the value of a little-endian byte sequence. -/
def le : List Byte → Nat
  | [] => 0
  | b :: s => b.toNat + 256 * le s

/-- `le_bytes(v, k)`: the `k` low bytes of `v`, lowest first. -/
def leBytes (v : Nat) : Nat → List Byte
  | 0 => []
  | k + 1 => BitVec.ofNat 8 v :: leBytes (v / 256) k

/-! ## Where a logical bit sits (`00_scope.md` R17, `30_encoding.md` R91) -/

/-- The body byte that holds logical index `i`. -/
def byteIndex (i : Nat) (w : WordWidth) : Nat :=
  i / wbits w * wbytes w + (wbytes w - 1 - i % wbits w / 8)

/-- The position of logical index `i` in that byte. -/
def bitInByte (i : Nat) (w : WordWidth) : Nat := 7 - i % wbits w % 8

/-- `GetBit(body, i, W)` as a truth value. -/
def getBit (body : List Byte) (w : WordWidth) (i : Nat) : Bool :=
  (body.getD (byteIndex i w) 0).getLsbD (bitInByte i w)

/-! ## Packing (`42_bit_packer.md` R150) -/

/-- The sum over the offsets below `o` of word `k`'s bits: offset `j` stands at position `W - 1 - j`
(`30_encoding.md` R89); an index of `n` or more contributes nothing. -/
def wordBits (bit : Nat → Bool) (n : Nat) (w : WordWidth) (k : Nat) : Nat → Nat
  | 0 => 0
  | o + 1 =>
    wordBits bit n w k o
      + if k * wbits w + o < n ∧ bit (k * wbits w + o) then 2 ^ (wbits w - 1 - o) else 0

/-- `V_k`, the integer value of word `k`. -/
def wordValue (bit : Nat → Bool) (n : Nat) (w : WordWidth) (k : Nat) : Nat :=
  wordBits bit n w k (wbits w)

/-- `PackBody(bit, N, W)` in its word-level form: each word's value as little-endian bytes, in index
order (`30_encoding.md` R90). -/
def packBody (bit : Nat → Bool) (n : Nat) (w : WordWidth) : List Byte :=
  (List.range (wordCount n w)).flatMap fun k => leBytes (wordValue bit n w k) (wbytes w)

/-! ## Memory formats of a bit sequence -/

/-- `insize(fmt, N, W)` and `outsize(fmt, N, W)` (`42_bit_packer.md` R151, R154): the bytes a sequence
of `n` bits takes in a format. -/
def formatSize (fmt : MemFormat) (n : Nat) (w : WordWidth) : Nat :=
  match fmt with
  | .lane => n
  | .store => requiredBytes n w

/-- `InBits(fmt, s, N, W)` (`42_bit_packer.md` R151): LANE, any byte but 0x00 is true (R86); STORE,
the bit at its place (R87). -/
def inBits (fmt : MemFormat) (s : List Byte) (w : WordWidth) (i : Nat) : Bool :=
  match fmt with
  | .lane => s.getD i 0 != 0
  | .store => getBit s w i

/-- The LANE byte of a truth value (`30_encoding.md` R86). -/
def laneByte (b : Bool) : Byte := if b then 1 else 0

/-- `OutBytes(fmt, body, N, W)` (`42_bit_packer.md` R154): LANE bytes, or the body with its padding
cleared. -/
def outBytes (fmt : MemFormat) (body : List Byte) (n : Nat) (w : WordWidth) : List Byte :=
  match fmt with
  | .lane => (List.range n).map fun i => laneByte (getBit body w i)
  | .store => packBody (getBit body w) n w

/-- `PaddingNonZero(body, N, W)` (`42_bit_packer.md` R153): some padding position (`30_encoding.md`
R92) holds a 1. -/
def paddingNonZero (body : List Byte) (n : Nat) (w : WordWidth) : Bool :=
  (List.range' n (wordCount n w * wbits w - n)).any (getBit body w)

end Sys2Proof.Machine
end

