-- ==== Sys2Proof/Machine/Flags.lean ====
section
/-!
DEFINITION. The flags: the error codes, STATUS and CTRL as the host reads them, the writes of 1 that
clear, and IRQ (`10_state.md` R24 to R26, R39, R41; `60_exceptions.md` R200, R210).
-/

namespace Sys2Proof.Machine

/-- The number of an error code (`60_exceptions.md` R200). -/
def codeOf : ErrorCode → BitVec 4
  | .truncatedLengthPrefix => 1
  | .truncatedBody => 2
  | .nonZeroPadding => 3
  | .lengthOverflow => 4
  | .illegalCommand => 5
  | .addressRange => 6
  | .regionOverlap => 7

/-- STATUS.ERR, always `ECODE != 0` (`10_state.md` R24). -/
def State.err (s : State) : Bool := s.ecode != 0

/-- A truth value as a bit at a position of a register. -/
def bitAt (b : Bool) (position : Nat) : Nat := b.toNat <<< position

/-- STATUS as the host reads it (`10_state.md` R24): BUSY, DONE, ERR, OVF, ECODE in bits 7:4, the rest
0. -/
def State.statusWord (s : State) : Reg32 :=
  BitVec.ofNat 32
    (bitAt s.busy 0 + bitAt s.done 1 + bitAt s.err 2 + bitAt s.ovf 3 + s.ecode.toNat <<< 4)

/-- CTRL as the host reads it (`10_state.md` R26): IE in bit 0, the rest 0. -/
def State.ctrlWord (s : State) : Reg32 := BitVec.ofNat 32 (bitAt s.ie 0)

/-- A host write of `v` to STATUS (`10_state.md` R25): a 1 in bit 1 clears DONE, a 1 in bit 3 clears
OVF, every other bit is ignored. -/
def State.clearStatus (s : State) (v : Reg32) : State :=
  { s with done := s.done && !v.getLsbD 1, ovf := s.ovf && !v.getLsbD 3 }

/-- A host write of `v` to CTRL (`10_state.md` R26). -/
def State.writeCtrl (s : State) (v : Reg32) : State := { s with ie := v.getLsbD 0 }

/-- A register write discarded because BUSY = 1 sets OVF (`10_state.md` R36). -/
def State.overflow (s : State) : State := { s with ovf := true }

/-- The output IRQ, at every instant IE and DONE (`10_state.md` R39, `60_exceptions.md` R210). -/
def State.irq (s : State) : Bool := s.ie && s.done

/-- The level the BSPU drives on a line of the platform's interrupt controller (`60_exceptions.md`
R212): IRQ on the line it is wired to. -/
def State.irqOn (s : State) (line : Nat) : Bool := decide (line = Config.irqLine) && s.irq

end Sys2Proof.Machine
end

