-- ==== Sys2Proof/Machine/Ops.lean ====
section
/-!
DEFINITION. The named operations over MEM and the registers: byte reads and writes, the range and
overlap checks, accepting a command, and completing one, with or without an error. Completing with an
error is the hardware's only form of an exception (`60_exceptions.md` R204 to R207); there is no
return from one.
-/

namespace Sys2Proof.Machine

/-! ## MEM -/

/-- What a byte of MEM that is not listed reads as. The spec leaves MEM after power-up to the platform
(`10_state.md` R44); the 0x00 is a DESIGN CHOICE (log entry 1). -/
def blankByte : Byte := 0

/-- The byte at an address. -/
def Memory.read : Memory → Nat → Byte
  | [], _ => blankByte
  | c :: m, a => if c.1 = a then c.2 else Memory.read m a

/-- The list with the pair `(a, b)` put in before the first larger address. -/
def Memory.insert (a : Nat) (b : Byte) : Memory → Memory
  | [] => [(a, b)]
  | c :: m => if a < c.1 then (a, b) :: c :: m else c :: Memory.insert a b m

/-- The list without what it holds for `a`. -/
def Memory.forget (m : Memory) (a : Nat) : Memory := m.filter fun c => c.1 != a

/-- Store one byte (`20_memory.md` R65, R66), keeping the canonical form. -/
def Memory.write (m : Memory) (a : Nat) (b : Byte) : Memory :=
  if b = blankByte then Memory.forget m a else Memory.insert a b (Memory.forget m a)

/-- `MemRead(a, n)` (`00_scope.md` R14). -/
def Memory.readBytes (m : Memory) (a n : Nat) : List Byte :=
  (List.range n).map fun j => Memory.read m (a + j)

/-- `MemWrite(a, len(v), v)` (`00_scope.md` R14). -/
def Memory.writeBytes (m : Memory) (a : Nat) : List Byte → Memory
  | [] => m
  | b :: v => Memory.writeBytes (Memory.write m a b) (a + 1) v

/-- The canonical form: addresses strictly rising, no entry equal to what an unlisted address reads
as. -/
abbrev Memory.Wf (m : Memory) : Prop :=
  m.Pairwise (fun c d => c.1 < d.1) ∧ ∀ c ∈ m, c.2 ≠ blankByte

/-- Every listed address exists: it is below `2 ^ ADDR_W` (`10_state.md` R43). -/
abbrev Memory.Within (m : Memory) (size : Nat) : Prop := ∀ c ∈ m, c.1 < size

/-! ## Regions -/

/-- The number of bytes of MEM (`10_state.md` R43). -/
def State.memSize (s : State) : Nat := 2 ^ s.params.addrW

/-- `InRange(a, n)`, without wrap-around (`00_scope.md` R14, `20_memory.md` R63). -/
abbrev State.inRange (s : State) (a n : Nat) : Prop := a + n ≤ s.memSize

/-- `Overlap(s, ns, d, nd)` (`20_memory.md` R64): two regions, neither empty, share a byte. -/
abbrev overlap (s ns d nd : Nat) : Prop := 0 < ns ∧ 0 < nd ∧ s < d + nd ∧ d < s + ns

/-! ## Accepting and completing a command -/

/-- A CMD write is accepted (`10_state.md` R35). A command just accepted has not been raced. -/
def State.accept (s : State) (c : Reg32) : State :=
  { s with cmd := c, busy := true, done := false, ecode := 0, raced := false }

/-- Completion with a code (`60_exceptions.md` R204). -/
def State.complete (s : State) (code : BitVec 4) : State :=
  { s with ecode := code, busy := false, done := true, raced := false }

/-- `raise E`: the command ends with the error's code and writes nothing but STATUS
(`00_scope.md` R15, `60_exceptions.md` R205). -/
def State.raise (s : State) (e : ErrorCode) : State := s.complete (codeOf e)

/-- Write what a command that ends without an error writes besides STATUS (`10_state.md` R40). -/
def State.commit (s : State) (f : Effect) : State :=
  { s with
    mem := Memory.writeBytes s.mem f.addr f.bytes
    len := f.len.getD s.len
    res0 := (f.res.map Prod.fst).getD s.res0
    res1 := (f.res.map Prod.snd).getD s.res1 }

/-- The end of a command: its error, or all that its rule writes and then code 0. All or nothing
(`60_exceptions.md` R205). -/
def State.finish (s : State) (r : Except ErrorCode Effect) : State :=
  match r with
  | .error e => s.raise e
  | .ok f => (s.commit f).complete 0

/-- A result register's value: every value the rules put there fits 32 bits
(`41_padding_calculator.md` R145). -/
def resWord (n : Nat) : Reg32 := BitVec.ofNat 32 n

end Sys2Proof.Machine
end

