-- ==== Sys2Proof/Machine/BitPacker.lean ====
section
/-!
DEFINITION. The Bit Packer's commands, PACK and UNPACK (`42_bit_packer.md`).
-/

namespace Sys2Proof.Machine

/-- What PACK writes, or its error: input range, output range, overlap, in that order
(`42_bit_packer.md` R152, `60_exceptions.md` R202). -/
def planPack (w : WordWidth) (fmt : MemFormat) (s : State) : Except ErrorCode Effect :=
  let n := s.len.toNat
  let rb := requiredBytes n w
  let ss := formatSize fmt n w
  if ¬ s.inRange s.src.toNat ss then .error .addressRange
  else if ¬ s.inRange s.dst.toNat rb then .error .addressRange
  else if overlap s.src.toNat ss s.dst.toNat rb then .error .regionOverlap
  else
    let input := Memory.readBytes s.mem s.src.toNat ss
    .ok ⟨s.dst.toNat, packBody (inBits fmt input w) n w, none, some (resWord rb, 0)⟩

/-- PACK (`42_bit_packer.md` R152). -/
def execPack (w : WordWidth) (fmt : MemFormat) (s : State) : Host.Outcome State Fault Refusal :=
  .next (s.finish (planPack w fmt s))

/-- What UNPACK writes, or its error: input range, body length (R155), padding in strict mode, output
range, overlap with the bytes read, in that order (`42_bit_packer.md` R156). -/
def planUnpack (w : WordWidth) (strict : Bool) (fmt : MemFormat) (s : State) :
    Except ErrorCode Effect :=
  let n := s.len.toNat
  let rb := requiredBytes n w
  let ds := formatSize fmt n w
  if ¬ s.inRange s.src.toNat s.srcAvail.toNat then .error .addressRange
  else if s.srcAvail.toNat < rb then .error .truncatedBody
  else
    let body := Memory.readBytes s.mem s.src.toNat rb
    if strict && paddingNonZero body n w then .error .nonZeroPadding
    else if ¬ s.inRange s.dst.toNat ds then .error .addressRange
    else if overlap s.src.toNat rb s.dst.toNat ds then .error .regionOverlap
    else .ok ⟨s.dst.toNat, outBytes fmt body n w, none, some (resWord rb, resWord ds)⟩

/-- UNPACK (`42_bit_packer.md` R156). -/
def execUnpack (w : WordWidth) (strict : Bool) (fmt : MemFormat) (s : State) :
    Host.Outcome State Fault Refusal :=
  .next (s.finish (planUnpack w strict fmt s))

end Sys2Proof.Machine
end

