-- ==== Sys2Proof/Machine/LengthCodec.lean ====
section
/-!
DEFINITION. The Length Codec: the compact prefix and its two commands, LENC and LDEC
(`40_length_codec.md`).
-/

namespace Sys2Proof.Machine

/-- The number of bits of `n` without leading zeros (`30_encoding.md` R88). -/
def bitLength (n : Nat) : Nat := if n = 0 then 0 else Nat.log2 n + 1

/-- The value bytes of a class-3 prefix, `k = max(4, cdiv(bitlength(n), 8))` (`40_length_codec.md`
R120). -/
def classThreeBytes (n : Nat) : Nat := max 4 (cdiv (bitLength n) 8)

/-- `LenEncode(n)` (`40_length_codec.md` R120; classes and layout `30_encoding.md` R88). -/
def lenEncode (n : Nat) : List Byte :=
  if n < 2 ^ 6 then [BitVec.ofNat 8 (n * 4)]
  else if n < 2 ^ 14 then leBytes (n * 4 + 1) 2
  else if n < 2 ^ 30 then leBytes (n * 4 + 2) 4
  else BitVec.ofNat 8 ((classThreeBytes n - 4) * 4 + 3) :: leBytes n (classThreeBytes n)

/-- `LenDecode(s)` (`40_length_codec.md` R121): the value and the prefix bytes consumed, or the error.
A prefix that is not minimal is accepted (R123). `LEN_W = 32` (`00_scope.md` R7). -/
def lenDecode (s : List Byte) : Except ErrorCode (Nat × Nat) :=
  match s with
  | [] => .error .truncatedLengthPrefix
  | b0 :: rest =>
    match b0.toNat % 4 with
    | 0 => .ok (b0.toNat / 4, 1)
    | 1 => if s.length < 2 then .error .truncatedLengthPrefix else .ok (le (s.take 2) / 4, 2)
    | 2 => if s.length < 4 then .error .truncatedLengthPrefix else .ok (le (s.take 4) / 4, 4)
    | _ =>
      if s.length < 1 + (b0.toNat / 4 + 4) then .error .truncatedLengthPrefix
      else if 2 ^ 32 ≤ le (rest.take (b0.toNat / 4 + 4)) then .error .lengthOverflow
      else .ok (le (rest.take (b0.toNat / 4 + 4)), 1 + (b0.toNat / 4 + 4))

/-- The most bytes LenDecode examines (`40_length_codec.md` R121). -/
def maxPrefixBytes : Nat := 68

/-- What LENC writes, or its error (`40_length_codec.md` R122). -/
def planLenc (s : State) : Except ErrorCode Effect :=
  let pf := lenEncode s.len.toNat
  if ¬ s.inRange s.dst.toNat pf.length then .error .addressRange
  else .ok ⟨s.dst.toNat, pf, none, some (resWord pf.length, 0)⟩

/-- LENC (`40_length_codec.md` R122). -/
def execLenc (s : State) : Host.Outcome State Fault Refusal := .next (s.finish (planLenc s))

/-- What LDEC writes, or its error (`40_length_codec.md` R125). -/
def planLdec (s : State) : Except ErrorCode Effect :=
  if ¬ s.inRange s.src.toNat s.srcAvail.toNat then .error .addressRange
  else
    match lenDecode (Memory.readBytes s.mem s.src.toNat (min s.srcAvail.toNat maxPrefixBytes)) with
    | .error e => .error e
    | .ok (n, p) => .ok ⟨0, [], some (resWord n), some (resWord p, 0)⟩

/-- LDEC (`40_length_codec.md` R125). -/
def execLdec (s : State) : Host.Outcome State Fault Refusal := .next (s.finish (planLdec s))

end Sys2Proof.Machine
end

