-- ==== Sys2Proof/Machine/BitSeqCodec.lean ====
section
/-!
DEFINITION. The Bit-Sequence Codec: the full encoding and its two commands, ENCODE and DECODE
(`43_bitseq_codec.md`).
-/

namespace Sys2Proof.Machine

/-- `Encoding(bit, N, W)` (`43_bitseq_codec.md` R170, `30_encoding.md` R93). -/
def encodingOf (bit : Nat → Bool) (n : Nat) (w : WordWidth) : List Byte :=
  lenEncode n ++ packBody bit n w

/-- What a decode that succeeds gives: the bit count, the prefix bytes and the body
(`43_bitseq_codec.md` R173). -/
structure Decoded where
  n : Nat
  p : Nat
  body : List Byte
  deriving DecidableEq, Repr

/-- `DecodeFn` over `avail` input bytes of which `bytes off k` gives `k` from offset `off` on
(`43_bitseq_codec.md` R173). It asks for the bytes it examines and no others (R177). -/
def decodeFrom (addrW avail : Nat) (bytes : Nat → Nat → List Byte) (w : WordWidth) (strict : Bool) :
    Except ErrorCode Decoded :=
  match lenDecode (bytes 0 (min avail maxPrefixBytes)) with
  | .error e => .error e
  | .ok (n, p) =>
    let rb := requiredBytes n w
    if 2 ^ addrW < rb then .error .lengthOverflow
    else if avail - p < rb then .error .truncatedBody
    else if strict && paddingNonZero (bytes p rb) n w then .error .nonZeroPadding
    else .ok ⟨n, p, bytes p rb⟩

/-- `DecodeFn(s, W, strict)` on a byte sequence (`43_bitseq_codec.md` R173). -/
def decodeFn (addrW : Nat) (s : List Byte) (w : WordWidth) (strict : Bool) :
    Except ErrorCode Decoded :=
  decodeFrom addrW s.length (fun off k => (s.drop off).take k) w strict

/-- What ENCODE writes, or its error: input range, output range, overlap, in that order
(`43_bitseq_codec.md` R172). -/
def planEncode (w : WordWidth) (fmt : MemFormat) (s : State) : Except ErrorCode Effect :=
  let n := s.len.toNat
  let p := (lenEncode n).length
  let rb := requiredBytes n w
  let ss := formatSize fmt n w
  if ¬ s.inRange s.src.toNat ss then .error .addressRange
  else if ¬ s.inRange s.dst.toNat (p + rb) then .error .addressRange
  else if overlap s.src.toNat ss s.dst.toNat (p + rb) then .error .regionOverlap
  else
    let input := Memory.readBytes s.mem s.src.toNat ss
    .ok ⟨s.dst.toNat, encodingOf (inBits fmt input w) n w, none, some (resWord (p + rb), resWord p)⟩

/-- ENCODE (`43_bitseq_codec.md` R172). -/
def execEncode (w : WordWidth) (fmt : MemFormat) (s : State) : Host.Outcome State Fault Refusal :=
  .next (s.finish (planEncode w fmt s))

/-- What DECODE writes, or its error: input range, the errors of `DecodeFn`, output range, overlap with
the bytes consumed, in that order (`43_bitseq_codec.md` R176). -/
def planDecode (w : WordWidth) (strict : Bool) (fmt : MemFormat) (s : State) :
    Except ErrorCode Effect :=
  if ¬ s.inRange s.src.toNat s.srcAvail.toNat then .error .addressRange
  else
    match decodeFrom s.params.addrW s.srcAvail.toNat
        (fun off k => Memory.readBytes s.mem (s.src.toNat + off) k) w strict with
    | .error e => .error e
    | .ok d =>
      let ds := formatSize fmt d.n w
      let used := d.p + requiredBytes d.n w
      if ¬ s.inRange s.dst.toNat ds then .error .addressRange
      else if overlap s.src.toNat used s.dst.toNat ds then .error .regionOverlap
      else
        .ok ⟨s.dst.toNat, outBytes fmt d.body d.n w, some (resWord d.n),
          some (resWord used, resWord d.p)⟩

/-- DECODE (`43_bitseq_codec.md` R176). -/
def execDecode (w : WordWidth) (strict : Bool) (fmt : MemFormat) (s : State) :
    Host.Outcome State Fault Refusal :=
  .next (s.finish (planDecode w strict fmt s))

end Sys2Proof.Machine
end

