-- ==== Sys2Proof/Machine/Control.lean ====
section
/-!
DEFINITION. The control command: NOP (`44_control.md`).
-/

namespace Sys2Proof.Machine

/-- What NOP writes besides STATUS: nothing (`44_control.md` R190). -/
def planNop (_s : State) : Except ErrorCode Effect := .ok ⟨0, [], none, none⟩

/-- NOP (`44_control.md` R190): completes with no effect. -/
def execNop (s : State) : Host.Outcome State Fault Refusal := .next (s.finish (planNop s))

end Sys2Proof.Machine
end

