-- ==== Sys2Proof/Machine/PaddingCalculator.lean ====
section
/-!
DEFINITION. The Word Padding Calculator's command, RBYTES (`41_padding_calculator.md`).
-/

namespace Sys2Proof.Machine

/-- What RBYTES writes: the body bytes and the number of words (`41_padding_calculator.md` R142). It
touches no MEM and raises nothing. -/
def planRbytes (w : WordWidth) (s : State) : Except ErrorCode Effect :=
  .ok ⟨0, [], none, some (resWord (requiredBytes s.len.toNat w), resWord (wordCount s.len.toNat w))⟩

/-- RBYTES (`41_padding_calculator.md` R142). -/
def execRbytes (w : WordWidth) (s : State) : Host.Outcome State Fault Refusal :=
  .next (s.finish (planRbytes w s))

end Sys2Proof.Machine
end

