-- ==== Sys2Proof/Machine/Dispatch.lean ====
section
/-!
DEFINITION. The dispatch of a command to its meaning, one arm per row of `spec/opcode_table.json`.
-/

namespace Sys2Proof.Machine

def exec (i : Instr) (s : State) : Host.Outcome State Fault Refusal :=
  match i with
  | .nop => Sys2Proof.Machine.execNop s
  | .lenc => Sys2Proof.Machine.execLenc s
  | .ldec => Sys2Proof.Machine.execLdec s
  | .rbytes w => Sys2Proof.Machine.execRbytes w s
  | .pack w fmt => Sys2Proof.Machine.execPack w fmt s
  | .unpack w strict fmt => Sys2Proof.Machine.execUnpack w strict fmt s
  | .encode w fmt => Sys2Proof.Machine.execEncode w fmt s
  | .decode w strict fmt => Sys2Proof.Machine.execDecode w strict fmt s

end Sys2Proof.Machine
end

