-- ==== Sys2Proof/WellFormed.lean ====
section
/-!
DEFINITION. When a command word is legal, in the words of `30_encoding.md` R95: four conditions on
its fields. The decoder is written from the other formulation of R95 (mask and match), so that each
checks the other. `Instr` itself admits no ill-formed term; what can be ill-formed is a word.
-/

namespace Sys2Proof

/-- The fields of a command word as they stand in it (`30_encoding.md` R81). -/
structure CmdFields where
  op : BitVec 4
  wsel : BitVec 2
  strict : BitVec 1
  fmt : BitVec 1
  order : BitVec 1
  reserved : BitVec 23
  deriving DecidableEq, Repr

/-- The fields of the word `c` (`30_encoding.md` R81). -/
def CmdFields.ofWord (c : Reg32) : CmdFields :=
  ⟨c.extractLsb' 0 4, c.extractLsb' 4 2, c.extractLsb' 6 1, c.extractLsb' 7 1, c.extractLsb' 8 1,
    c.extractLsb' 9 23⟩

/-- R95 condition 1 does not hold: OP is not 8 to 15. -/
def CmdFields.opKnown (f : CmdFields) : Bool := decide (f.op.toNat < 8)

/-- R95 condition 2 does not hold: ORDER is 0 (MSB-first, R85). -/
def CmdFields.orderLegal (f : CmdFields) : Bool := f.order == 0

/-- R95 condition 3 does not hold: bits 31:9 are 0. -/
def CmdFields.reservedClear (f : CmdFields) : Bool := f.reserved == 0

/-- The commands that take WSEL: RBYTES, PACK, UNPACK, ENCODE, DECODE (R82, R97). -/
def CmdFields.takesWsel (f : CmdFields) : Bool := decide (3 ≤ f.op.toNat ∧ f.op.toNat ≤ 7)

/-- The commands that take STRICT: UNPACK, DECODE (R83, R97). -/
def CmdFields.takesStrict (f : CmdFields) : Bool := f.op == 5 || f.op == 7

/-- The commands that take FMT: PACK, UNPACK, ENCODE, DECODE (R84, R97). -/
def CmdFields.takesFmt (f : CmdFields) : Bool := decide (4 ≤ f.op.toNat ∧ f.op.toNat ≤ 7)

/-- R95 condition 4 does not hold: every field the command does not take is 0. -/
def CmdFields.unusedClear (f : CmdFields) : Bool :=
  (f.takesWsel || f.wsel == 0) && (f.takesStrict || f.strict == 0) && (f.takesFmt || f.fmt == 0)

/-- A command word is legal when none of the four conditions of R95 holds. -/
def CmdFields.WellFormed (f : CmdFields) : Bool :=
  f.opKnown && f.orderLegal && f.reservedClear && f.unusedClear

end Sys2Proof
end

