-- ==== Sys2Proof/Decode.lean ====
section
/-!
DEFINITION. The decoder of command words (total on every 32-bit word, rejecting by name) and the
encoder, both from the opcode map of `30_encoding.md` R97 and the field table of R81.
-/

namespace Sys2Proof

/-- Why a word is illegal (`30_encoding.md` R95). The name is the model's; the hardware records only
IllegalCommand, code 5, whichever it is (log entry 18). -/
inductive Illegal where
  | reservedOp
  | orderSet
  | reservedBits
  | unusedField
  deriving DecidableEq, Repr

/-- OP, bits 3:0 (R81). -/
def opOf (c : Reg32) : Nat := c.toNat % 16

/-- WSEL, bits 5:4 (R81). -/
def wselOf (c : Reg32) : Nat := c.toNat / 16 % 4

/-- STRICT, bit 6 (R81). -/
def strictOf (c : Reg32) : Bool := c.getLsbD 6

/-- FMT, bit 7 (R81, R84). -/
def fmtOf (c : Reg32) : MemFormat := if c.getLsbD 7 then .store else .lane

/-- `wordsel` (`00_scope.md` R17, `30_encoding.md` R82), on WSEL in 0..3. -/
def wordsel : Nat → WordWidth
  | 0 => .w8
  | 1 => .w16
  | 2 => .w32
  | _ => .w64

/-- The mask of an OP's row (R97): a 1 in every bit that must equal `match`. An OP of 8 to 15 has no
row. -/
def maskOf : Nat → Option Reg32
  | 0 => some 0xFFFFFFFF
  | 1 => some 0xFFFFFFFF
  | 2 => some 0xFFFFFFFF
  | 3 => some 0xFFFFFFCF
  | 4 => some 0xFFFFFF4F
  | 5 => some 0xFFFFFF0F
  | 6 => some 0xFFFFFF4F
  | 7 => some 0xFFFFFF0F
  | _ => none

/-- The `match` column of R97: the OP itself, every other fixed bit 0. -/
def matchOf (op : Nat) : Reg32 := BitVec.ofNat 32 op

/-- The command a word with this OP and these fields stands for (R97). -/
def build (op : Nat) (w : WordWidth) (strict : Bool) (fmt : MemFormat) : Instr :=
  match op with
  | 0 => .nop
  | 1 => .lenc
  | 2 => .ldec
  | 3 => .rbytes w
  | 4 => .pack w fmt
  | 5 => .unpack w strict fmt
  | 6 => .encode w fmt
  | _ => .decode w strict fmt

/-- The name under which an illegal word with a known OP is rejected. -/
def blame (c : Reg32) : Illegal :=
  if c.getLsbD 8 then .orderSet
  else if c.toNat / 512 ≠ 0 then .reservedBits
  else .unusedField

/-- The decoder. A word is legal exactly when `(c & mask(OP)) = match(OP)` (R95). -/
def decode (c : Reg32) : Except Illegal Instr :=
  match maskOf (opOf c) with
  | none => .error .reservedOp
  | some m =>
    if c &&& m = matchOf (opOf c) then
      .ok (build (opOf c) (wordsel (wselOf c)) (strictOf c) (fmtOf c))
    else .error (blame c)

/-! ## The encoder -/

/-- WSEL of a word width (R82). -/
def wselCode : WordWidth → Nat
  | .w8 => 0
  | .w16 => 1
  | .w32 => 2
  | .w64 => 3

/-- FMT of a memory format (R84). -/
def fmtCode : MemFormat → Nat
  | .lane => 0
  | .store => 1

/-- `c = OP | (WSEL << 4) | (STRICT << 6) | (FMT << 7) | (ORDER << 8)` with ORDER = 0 (R81). -/
def packWord (op wsel strict fmt : Nat) : Reg32 :=
  BitVec.ofNat 32 (op ||| wsel <<< 4 ||| strict <<< 6 ||| fmt <<< 7)

/-- The command word of a command (R97). -/
def encode : Instr → Reg32
  | .nop => packWord 0 0 0 0
  | .lenc => packWord 1 0 0 0
  | .ldec => packWord 2 0 0 0
  | .rbytes w => packWord 3 (wselCode w) 0 0
  | .pack w fmt => packWord 4 (wselCode w) 0 (fmtCode fmt)
  | .unpack w strict fmt => packWord 5 (wselCode w) strict.toNat (fmtCode fmt)
  | .encode w fmt => packWord 6 (wselCode w) 0 (fmtCode fmt)
  | .decode w strict fmt => packWord 7 (wselCode w) strict.toNat (fmtCode fmt)

/-- The OP of a command (R97). -/
def opNumber : Instr → Nat
  | .nop => 0
  | .lenc => 1
  | .ldec => 2
  | .rbytes _ => 3
  | .pack _ _ => 4
  | .unpack _ _ _ => 5
  | .encode _ _ => 6
  | .decode _ _ _ => 7

/-- The host's reading of a row of the opcode table: the command of the word whose bits are `w`, of
which the table gives the low `nbits`. A command word is one 32-bit register write (R80), so no byte
order enters. -/
def decodeTableWord (nbits w : Nat) : Option Instr :=
  (decode (BitVec.ofNat 32 (w % 2 ^ nbits))).toOption

end Sys2Proof
end

