-- ==== Sys2Proof/Machine/Regions.lean ====
section
/-!
DEFINITION. The input and output region of a command, which the host must keep off while it runs
(`20_memory.md` R71, `30_encoding.md` R98), and what the command would write if it completed now.
-/

namespace Sys2Proof.Machine

/-- A region of MEM: first address and size. -/
abbrev Region := Nat × Nat

/-- A region with no byte. -/
def noRegion : Region := (0, 0)

/-- The address lies in the region. -/
abbrev inside (r : Region) (a : Nat) : Prop := r.1 ≤ a ∧ a < r.1 + r.2

/-- What the command would write, or its error, if it completed in this state: the same plans that
`exec` carries out. -/
def plan (i : Instr) (s : State) : Except ErrorCode Effect :=
  match i with
  | .nop => planNop s
  | .lenc => planLenc s
  | .ldec => planLdec s
  | .rbytes w => planRbytes w s
  | .pack w fmt => planPack w fmt s
  | .unpack w strict fmt => planUnpack w strict fmt s
  | .encode w fmt => planEncode w fmt s
  | .decode w strict fmt => planDecode w strict fmt s

/-- The input region of a command, at its largest: `[SRC, SRC + SRC_AVAIL)` for LDEC, UNPACK and
DECODE (`20_memory.md` R71), `[SRC, SRC + ss)` for PACK and ENCODE (`30_encoding.md` R98). -/
def inputRegion (i : Instr) (s : State) : Region :=
  match i with
  | .nop => noRegion
  | .lenc => noRegion
  | .ldec => (s.src.toNat, s.srcAvail.toNat)
  | .rbytes _ => noRegion
  | .pack w fmt => (s.src.toNat, formatSize fmt s.len.toNat w)
  | .unpack _ _ _ => (s.src.toNat, s.srcAvail.toNat)
  | .encode w fmt => (s.src.toNat, formatSize fmt s.len.toNat w)
  | .decode _ _ _ => (s.src.toNat, s.srcAvail.toNat)

/-- The largest body DECODE can find in SRC_AVAIL bytes: whole words after a prefix of one byte. -/
def largestBody (w : WordWidth) (avail : Nat) : Nat := (avail - 1) / wbytes w * wbytes w

/-- The output region of a command, at its largest (`30_encoding.md` R98, `20_memory.md` R71). Only
DECODE's size is not fixed by the registers: it is at most the size of the largest body's content
(DEDUCED, log entry 6). -/
def outputRegion (i : Instr) (s : State) : Region :=
  match i with
  | .nop => noRegion
  | .lenc => (s.dst.toNat, (lenEncode s.len.toNat).length)
  | .ldec => noRegion
  | .rbytes _ => noRegion
  | .pack w _ => (s.dst.toNat, requiredBytes s.len.toNat w)
  | .unpack w _ fmt => (s.dst.toNat, formatSize fmt s.len.toNat w)
  | .encode w _ => (s.dst.toNat, (lenEncode s.len.toNat).length + requiredBytes s.len.toNat w)
  | .decode w _ .lane => (s.dst.toNat, 8 * largestBody w s.srcAvail.toNat)
  | .decode w _ .store => (s.dst.toNat, largestBody w s.srcAvail.toNat)

/-- The part of a region that lies in MEM. -/
def clip (s : State) (r : Region) : Region := (r.1, min r.2 (s.memSize - r.1))

/-- The command may touch a byte of the port that is not plain memory (`20_memory.md` R60, R66; log
entry 13). -/
def touchesNonRam (i : Instr) (s : State) : Bool :=
  s.params.nonRam.any fun r =>
    decide (overlap r.1 r.2 (inputRegion i s).1 (inputRegion i s).2)
      || decide (overlap r.1 r.2 (outputRegion i s).1 (outputRegion i s).2)

/-- The address is one of the port's that is not plain memory. -/
def isNonRam (s : State) (a : Nat) : Bool := s.params.nonRam.any fun r => decide (inside r a)

end Sys2Proof.Machine
end

