-- ==== Sys2Proof/Machine/Race.lean ====
section
/-!
DEFINITION. The draws: what a command that the host has raced leaves behind (`20_memory.md` R71), what
a host read of a running command's output byte returns, and what a reset during a command leaves in
MEM (`70_reset_and_hazards.md` R231). Each open value is a free value of Config applied to the draw
counter (log entries 7 and 8).
-/

namespace Sys2Proof.Machine

/-- `n` drawn bytes, from the draw counter `k` on. -/
def drawBytes (k n : Nat) : List Byte := (List.range n).map fun j => Config.freeByte (k + j)

/-- Completion of a raced command: every output byte (the output region at its largest, as far as it
lies in MEM), LEN, RES0, RES1 and ECODE is a draw (`20_memory.md` R71); STATUS otherwise as
`60_exceptions.md` R204 says. -/
def racedCompletion (i : Instr) (s : State) : State :=
  let r := clip s (outputRegion i s)
  let k := s.draws
  { (s.complete ((Config.freeCode k).zeroExtend 4)) with
    mem := Memory.writeBytes s.mem r.1 (drawBytes k r.2)
    len := Config.freeLen k
    res0 := Config.freeRes0 k
    res1 := Config.freeRes1 k
    draws := k + r.2 + 1 }

/-- The byte the running command would leave at an address: a draw if it is raced, the old byte if it
would end with an error, else what its rule writes. -/
def newByte (i : Instr) (s : State) (a : Nat) : Byte :=
  if s.raced then Config.freeByte s.draws
  else
    match plan i s with
    | .error _ => Memory.read s.mem a
    | .ok f => Memory.read (Memory.writeBytes s.mem f.addr f.bytes) a

/-- A draw between the old and the new value of a byte of the running command's output. -/
def drawnByte (i : Instr) (s : State) (a : Nat) : Byte :=
  if Config.freeChoice s.draws then newByte i s a else Memory.read s.mem a

/-- Each byte of `new`, from address `a` on, replaced by a draw between what MEM holds there and
itself. -/
def mixBytes (m : Memory) (k a : Nat) : List Byte → List Byte
  | [] => []
  | b :: v =>
    (if Config.freeChoice k then b else Memory.read m a) :: mixBytes m (k + 1) (a + 1) v

/-- The output a reset abandons: its address and the bytes each of which may or may not have been
written (`70_reset_and_hazards.md` R231). None for a command that would end with an error; for a
raced one every byte of the output region is a draw. -/
def abandonedOutput (i : Instr) (s : State) : Nat × List Byte :=
  if s.raced then
    let r := clip s (outputRegion i s)
    (r.1, drawBytes s.draws r.2)
  else
    match plan i s with
    | .error _ => (0, [])
    | .ok f => (f.addr, f.bytes)

/-- MEM after a reset that abandons the command `i`: each output byte a draw between its old and its
new value, no other byte changed (`70_reset_and_hazards.md` R231). -/
def abandonedMemory (i : Instr) (s : State) : Memory :=
  let out := abandonedOutput i s
  Memory.writeBytes s.mem out.1 (mixBytes s.mem s.draws out.1 out.2)

/-- The command the latched word stands for while it is running: BUSY is 1 and the word is legal. An
illegal word names no region (`30_encoding.md` R95). -/
def State.running (s : State) : Option Instr :=
  if s.busy then (decode s.cmd).toOption else none

end Sys2Proof.Machine
end

