-- ==== Sys2Proof/Machine/HostBus.lean ====
section
/-!
DEFINITION. What the host and the reset input do: register reads and writes (`10_state.md` R23 to R37),
byte accesses of MEM with the duty of `20_memory.md` R71, and reset (`70_reset_and_hazards.md` R230 to
R232).
-/

namespace Sys2Proof.Machine

/-! ## The register window -/

/-- The register at an offset of the window (`10_state.md` R20). -/
def regAt (offset : Nat) : Reg :=
  match offset with
  | 0x00 => .cmd
  | 0x04 => .status
  | 0x08 => .ctrl
  | 0x0C => .len
  | 0x10 => .src
  | 0x14 => .srcAvail
  | 0x18 => .dst
  | 0x1C => .res0
  | 0x20 => .res1
  | _ => .reserved

/-- The accesses the BSPU gives a meaning (`10_state.md` R34): 32 bits wide, in the 64-byte window, at
an offset that is a multiple of 4. -/
abbrev State.legalAccess (s : State) (addr size : Nat) : Prop :=
  size = 4 ∧ s.params.base ≤ addr ∧ addr < s.params.base + 64 ∧ (addr - s.params.base) % 4 = 0

/-- The value a host read of a register returns (`10_state.md` R37); a reserved offset reads as 0
(R33). -/
def State.readReg (s : State) (r : Reg) : Reg32 :=
  match r with
  | .cmd => s.cmd
  | .status => s.statusWord
  | .ctrl => s.ctrlWord
  | .len => s.len
  | .src => s.src
  | .srcAvail => s.srcAvail
  | .dst => s.dst
  | .res0 => s.res0
  | .res1 => s.res1
  | .reserved => 0

/-- A host write of a register while the reset input is not asserted: CMD launches or is discarded
(`10_state.md` R35, R36), STATUS clears (R25), CTRL is written (R26), an operand register is written
or the write discarded with OVF (R36), the others ignore it (R31 to R33). -/
def State.writeReg (s : State) (r : Reg) (v : Reg32) : State :=
  match r with
  | .cmd => if s.busy then s.overflow else s.accept v
  | .status => s.clearStatus v
  | .ctrl => s.writeCtrl v
  | .len => if s.busy then s.overflow else { s with len := v }
  | .src => if s.busy then s.overflow else { s with src := v }
  | .srcAvail => if s.busy then s.overflow else { s with srcAvail := v }
  | .dst => if s.busy then s.overflow else { s with dst := v }
  | .res0 => s
  | .res1 => s
  | .reserved => s

/-- A host read of the register window. It has no side effect on the BSPU (`10_state.md` R34). -/
def hostRegRead (addr size : Nat) (s : State) : Host.Outcome State Fault Refusal :=
  if s.legalAccess addr size then
    .next { s with reply := .reg (s.readReg (regAt (addr - s.params.base))) }
  else .refused .registerAccess

/-- A host write of the register window. While the reset input is asserted every register holds its
reset value, so the write has no effect (`70_reset_and_hazards.md` R230, `60_exceptions.md` R213). -/
def hostRegWrite (addr size : Nat) (v : Reg32) (s : State) : Host.Outcome State Fault Refusal :=
  if s.legalAccess addr size then
    .next (if s.resetLine then s else s.writeReg (regAt (addr - s.params.base)) v)
  else .refused .registerAccess

/-! ## MEM -/

/-- A bus master's read of a byte of MEM. A read of the running command's output region is a breach of
`20_memory.md` R71 and returns a draw; any other returns the byte. -/
def hostMemRead (a : Nat) (s : State) : Host.Outcome State Fault Refusal :=
  if s.memSize ≤ a then .fault .noSuchAddress
  else if isNonRam s a then .refused .notPlainMemory
  else
    match s.running with
    | some i =>
      if inside (outputRegion i s) a then
        .next { s with reply := .byte (drawnByte i s a), raced := true, draws := s.draws + 1 }
      else .next { s with reply := .byte (Memory.read s.mem a) }
    | none => .next { s with reply := .byte (Memory.read s.mem a) }

/-- A bus master's write of a byte of MEM. A write to the running command's input or output region is
a breach of `20_memory.md` R71. -/
def hostMemWrite (a : Nat) (b : Byte) (s : State) : Host.Outcome State Fault Refusal :=
  if s.memSize ≤ a then .fault .noSuchAddress
  else if isNonRam s a then .refused .notPlainMemory
  else
    match s.running with
    | some i =>
      if inside (inputRegion i s) a ∨ inside (outputRegion i s) a then
        .next { s with mem := Memory.write s.mem a b, raced := true }
      else .next { s with mem := Memory.write s.mem a b }
    | none => .next { s with mem := Memory.write s.mem a b }

/-! ## Reset -/

/-- Every register at its reset value (`10_state.md` R44), the input asserted. MEM, the platform and
the moves to come are not the block's (`70_reset_and_hazards.md` R232). -/
def State.clearRegisters (s : State) : State :=
  { s with
    cmd := 0, busy := false, done := false, ovf := false, ecode := 0, ie := false
    len := 0, src := 0, srcAvail := 0, dst := 0, res0 := 0, res1 := 0
    raced := false, resetLine := true }

/-- The reset input is asserted (`70_reset_and_hazards.md` R230): the registers are reset and a running
command is abandoned, its output bytes drawn between old and new (R231). -/
def assertReset (s : State) : Host.Outcome State Fault Refusal :=
  match s.running with
  | none => .next s.clearRegisters
  | some i =>
    if touchesNonRam i s then .refused .notPlainMemory
    else
      .next
        { s.clearRegisters with
          mem := abandonedMemory i s
          draws := s.draws + (abandonedOutput i s).2.length }

/-- The reset input is released (`70_reset_and_hazards.md` R230): the registers keep their reset
values. -/
def releaseReset (s : State) : Host.Outcome State Fault Refusal :=
  .next { s with resetLine := false }

end Sys2Proof.Machine
end

