-- ==== Sys2Proof/Machine/Engine.lean ====
section
/-!
DEFINITION. The engine's step (`60_exceptions.md` R204), one move of one agent, and how a command comes
to run.
-/

namespace Sys2Proof.Machine

/-- The engine runs the command the latched word stands for. A command whose regions the host has
touched ends in draws (`20_memory.md` R71); a command that may touch something other than plain
memory is refused (R60). -/
def runCommand (i : Instr) (s : State) : Host.Outcome State Fault Refusal :=
  if touchesNonRam i s then .refused .notPlainMemory
  else if s.raced then .next (racedCompletion i s)
  else exec i s

/-- The engine's step: enabled exactly when BUSY is 1 (`60_exceptions.md` R204), and never while reset
holds BUSY at 0. It checks the word first (R201). An engine that is not enabled is idle: nothing
changes (R226). -/
def engineStep (s : State) : Host.Outcome State Fault Refusal :=
  if s.busy && !s.resetLine then
    match decode s.cmd with
    | .error _ => .next (s.raise .illegalCommand)
    | .ok i => runCommand i s
  else .next s

/-- One move of one agent (`00_scope.md` R19). -/
def runMove (m : Move) (s : State) : Host.Outcome State Fault Refusal :=
  match m with
  | .engine => engineStep s
  | .regRead addr size => hostRegRead addr size s
  | .regWrite addr size v => hostRegWrite addr size v s
  | .memRead a => hostMemRead a s
  | .memWrite a b => hostMemWrite a b s
  | .assertReset => assertReset s
  | .releaseReset => releaseReset s

/-- The oldest move to come is made; with none to come the engine has the turn. -/
def nextMove (s : State) : Host.Outcome State Fault Refusal :=
  match s.moves with
  | [] => engineStep s
  | m :: rest => runMove m { s with moves := rest }

/-- The command word `c` accepted (`10_state.md` R35) with reset not asserted, and the engine next to
move. -/
def State.launch (s : State) (c : Reg32) : State :=
  { (s.accept c) with resetLine := false, moves := .engine :: s.moves }

end Sys2Proof.Machine
end

