-- ==== Sys2Proof/Machine/Step.lean ====
section
/-!
DEFINITION. One step of the machine, and how the host places a command for the next step.
-/

namespace Sys2Proof.Machine

/-- One step: one move of one agent (`00_scope.md` R16, R19). -/
def step (s : State) : Host.Outcome State Fault Refusal := nextMove s

/-- The state in which the very next step runs the command whose word has the low `nbits` bits of `w`:
the BSPU fetches nothing (`10_state.md` R22), so the word is latched as an accepted CMD write latches
it (R35). -/
def State.withFetchWord (s : State) (nbits w : Nat) : State :=
  s.launch (BitVec.ofNat 32 (w % 2 ^ nbits))

end Sys2Proof.Machine
end

