-- ==== Sys2Proof/Machine/HostNotation.lean ====
section
/-!
DEFINITION. The host notation of `30_encoding.md` R100 as moves of the host, and the cursor arithmetic
the host does between commands (`43_bitseq_codec.md` R179).
-/

namespace Sys2Proof.Machine

/-- The offset of a register in the window (`10_state.md` R20); for `reserved` the first reserved one
(R33). -/
def offsetOf : Reg → Nat
  | .cmd => 0x00
  | .status => 0x04
  | .ctrl => 0x08
  | .len => 0x0C
  | .src => 0x10
  | .srcAvail => 0x14
  | .dst => 0x18
  | .res0 => 0x1C
  | .res1 => 0x20
  | .reserved => 0x24

/-- `wr REG, v`. -/
def hostWr (p : Params) (r : Reg) (v : Reg32) : Move := .regWrite (p.base + offsetOf r) 4 v

/-- `rd REG`. -/
def hostRd (p : Params) (r : Reg) : Move := .regRead (p.base + offsetOf r) 4

/-- `wait`: reads of STATUS until BUSY reads 0. Here `polls` reads come before the engine's turn, and
one after it. -/
def hostWait (p : Params) (polls : Nat) : List Move :=
  List.replicate polls (hostRd p .status) ++ [.engine, hostRd p .status]

/-- `run <cmd>`: `wr CMD`, then `wait`. -/
def hostRun (p : Params) (polls : Nat) (c : Reg32) : List Move := hostWr p .cmd c :: hostWait p polls

/-- `clr`: a write of 0x0A to STATUS, which clears DONE and OVF. -/
def hostClr (p : Params) : Move := hostWr p .status 0x0A

/-- `mem a: [b0, b1, ...]`. -/
def hostMem (a : Nat) : List Byte → List Move
  | [] => []
  | b :: v => .memWrite a b :: hostMem (a + 1) v

/-- After a successful DECODE the host continues at `SRC + RES0` with `SRC_AVAIL - RES0`
(`43_bitseq_codec.md` R179). Where the bytes consumed end at `2^32`, the top of MEM with `ADDR_W = 32`,
no register holds the sum and the spec does not say what the host writes; that the cursor wraps to 0
is a DESIGN CHOICE (log entry 28). -/
def hostAdvanceInput (p : Params) (s : State) : List Move :=
  [hostWr p .src (s.src + s.res0), hostWr p .srcAvail (s.srcAvail - s.res0)]

/-- After a successful ENCODE the host appends at `DST + RES0` (`43_bitseq_codec.md` R179). Where the
output ends at `2^32`, that the cursor wraps to 0 is a DESIGN CHOICE (log entry 28). -/
def hostAdvanceOutput (p : Params) (s : State) : List Move := [hostWr p .dst (s.dst + s.res0)]

end Sys2Proof.Machine
end

