-- ==== Sys2Proof/Safety.lean ====
section
/-!
DEFINITION. What a run may count on: the invariant of the BSPU, and the host's duty while a command
runs, in the terms claims use.
-/

namespace Sys2Proof.Machine

/-- MEM keeps its canonical form, and lists only addresses that exist (`10_state.md` R43). -/
abbrev State.MemOk (s : State) : Prop := Memory.Wf s.mem ∧ Memory.Within s.mem s.memSize

/-- ECODE is a legal value: the engine never writes 8 to 15 (`10_state.md` R24). -/
abbrev State.CodeOk (s : State) : Prop := s.ecode.toNat ≤ 7

/-- While BUSY is 1, DONE and ECODE are 0 (`10_state.md` R35, `60_exceptions.md` R213). -/
abbrev State.BusyOk (s : State) : Prop := s.busy = true → s.done = false ∧ s.ecode = 0

/-- Only a running command is raced. -/
abbrev State.RaceOk (s : State) : Prop := s.raced = true → s.busy = true

/-- While the reset input is asserted every register holds its reset value
(`70_reset_and_hazards.md` R230). -/
abbrev State.ResetOk (s : State) : Prop := s.resetLine = true → s = s.clearRegisters

/-- The invariant every step keeps. -/
def State.Inv (s : State) : Prop :=
  s.MemOk ∧ s.params.Legal ∧ s.CodeOk ∧ s.BusyOk ∧ s.RaceOk ∧ s.ResetOk

/-- The move keeps the host's duty of `20_memory.md` R71 in this state: while a command runs, no write
to its input or output region and no read of its output region. -/
def Move.KeepsDuty (s : State) (m : Move) : Prop :=
  match s.running with
  | none => True
  | some i =>
    match m with
    | .memWrite a _ => ¬ inside (inputRegion i s) a ∧ ¬ inside (outputRegion i s) a
    | .memRead a => ¬ inside (outputRegion i s) a
    | _ => True

/-- The engine can take its step on a legal command and carry out exactly its rule: the command runs,
reset is not asserted, no duty was breached, and behind the port is plain memory. -/
def State.Ready (s : State) (i : Instr) : Prop :=
  s.running = some i ∧ s.resetLine = false ∧ s.raced = false ∧ touchesNonRam i s = false

/-! ## Whose turn it is -/

/-- The engine makes the next move: it heads the list of moves, or no move is to come. -/
def State.EngineNext (s : State) : Prop := s.moves = [] ∨ s.moves.head? = some .engine

/-- The state with the oldest move taken off the list. -/
def State.taken (s : State) : State := { s with moves := s.moves.tail }

/-! ## What a command leaves -/

/-- Everything no command writes when it ends: CMD, OVF, CTRL, SRC, SRC_AVAIL, DST and what is not the
block's (`10_state.md` R40; `60_exceptions.md` R204). -/
def SameSurroundings (s t : State) : Prop :=
  t.cmd = s.cmd ∧ t.ovf = s.ovf ∧ t.ie = s.ie ∧ t.src = s.src ∧ t.srcAvail = s.srcAvail ∧
    t.dst = s.dst ∧ t.params = s.params ∧ t.resetLine = s.resetLine ∧ t.moves = s.moves ∧
    t.reply = s.reply ∧ t.draws = s.draws

/-- STATUS after a completion with a code (`60_exceptions.md` R204). -/
def Ended (t : State) (code : BitVec 4) : Prop :=
  t.busy = false ∧ t.done = true ∧ t.ecode = code ∧ t.raced = false

/-- MEM holds `v` at `a` on, and every byte outside `[a, a + len(v))` reads as before. -/
def Stored (s t : State) (a : Nat) (v : List Byte) : Prop :=
  (∀ j, ∀ h : j < v.length, Memory.read t.mem (a + j) = v[j]) ∧
    ∀ c, c < a ∨ a + v.length ≤ c → Memory.read t.mem c = Memory.read s.mem c

/-- The command writes LEN when it succeeds: LDEC and DECODE (`10_state.md` R21). -/
def writesLen : Instr → Bool
  | .ldec => true
  | .decode _ _ _ => true
  | _ => false

/-- The size of the output region a command that ended in `t` wrote (`10_state.md` R40): nothing after
an error, and for DECODE the size of the `n` bits it put in LEN. -/
def writtenSize (i : Instr) (s t : State) : Nat :=
  if t.ecode ≠ 0 then 0
  else
    match i with
    | .nop => 0
    | .lenc => (lenEncode s.len.toNat).length
    | .ldec => 0
    | .rbytes _ => 0
    | .pack w _ => requiredBytes s.len.toNat w
    | .unpack w _ fmt => formatSize fmt s.len.toNat w
    | .encode w _ => (lenEncode s.len.toNat).length + requiredBytes s.len.toNat w
    | .decode w _ fmt => formatSize fmt t.len.toNat w

/-! ## The order of checks (`60_exceptions.md` R202), written apart from the meanings -/

/-- The result is this error. -/
def failsWith {α : Type} (r : Except ErrorCode α) (e : ErrorCode) : Bool :=
  match r with
  | .error x => x == e
  | .ok _ => false

/-- The value and prefix length of a decoded prefix; zeros where there is none. -/
def prefixOf (r : Except ErrorCode (Nat × Nat)) : Nat × Nat :=
  match r with
  | .error _ => (0, 0)
  | .ok v => v

/-- All the bytes the host makes available at SRC. -/
def availableBytes (s : State) : List Byte :=
  Memory.readBytes s.mem s.src.toNat s.srcAvail.toNat

/-- A region does not fit in MEM. -/
def outOfRange (s : State) (a n : Nat) : Bool := decide (2 ^ s.params.addrW < a + n)

/-- The checks of a command after the word check, in the order of R202, each with its code. -/
def checksOf (i : Instr) (s : State) : List (Bool × ErrorCode) :=
  let n := s.len.toNat
  match i with
  | .nop => []
  | .lenc => [(outOfRange s s.dst.toNat (lenEncode n).length, .addressRange)]
  | .ldec =>
    let r := lenDecode (availableBytes s)
    [(outOfRange s s.src.toNat s.srcAvail.toNat, .addressRange),
      (failsWith r .truncatedLengthPrefix, .truncatedLengthPrefix),
      (failsWith r .lengthOverflow, .lengthOverflow)]
  | .rbytes _ => []
  | .pack w fmt =>
    let ss := formatSize fmt n w
    let rb := requiredBytes n w
    [(outOfRange s s.src.toNat ss, .addressRange),
      (outOfRange s s.dst.toNat rb, .addressRange),
      (decide (overlap s.src.toNat ss s.dst.toNat rb), .regionOverlap)]
  | .unpack w strict fmt =>
    let rb := requiredBytes n w
    let ds := formatSize fmt n w
    [(outOfRange s s.src.toNat s.srcAvail.toNat, .addressRange),
      (decide (s.srcAvail.toNat < rb), .truncatedBody),
      (strict && paddingNonZero ((availableBytes s).take rb) n w, .nonZeroPadding),
      (outOfRange s s.dst.toNat ds, .addressRange),
      (decide (overlap s.src.toNat rb s.dst.toNat ds), .regionOverlap)]
  | .encode w fmt =>
    let ss := formatSize fmt n w
    let size := (lenEncode n).length + requiredBytes n w
    [(outOfRange s s.src.toNat ss, .addressRange),
      (outOfRange s s.dst.toNat size, .addressRange),
      (decide (overlap s.src.toNat ss s.dst.toNat size), .regionOverlap)]
  | .decode w strict fmt =>
    let r := lenDecode (availableBytes s)
    let m := (prefixOf r).1
    let p := (prefixOf r).2
    let rb := requiredBytes m w
    let ds := formatSize fmt m w
    [(outOfRange s s.src.toNat s.srcAvail.toNat, .addressRange),
      (failsWith r .truncatedLengthPrefix, .truncatedLengthPrefix),
      (failsWith r .lengthOverflow, .lengthOverflow),
      (decide (2 ^ s.params.addrW < rb), .lengthOverflow),
      (decide (s.srcAvail.toNat - p < rb), .truncatedBody),
      (strict && paddingNonZero (((availableBytes s).drop p).take rb) m w, .nonZeroPadding),
      (outOfRange s s.dst.toNat ds, .addressRange),
      (decide (overlap s.src.toNat (p + rb) s.dst.toNat ds), .regionOverlap)]

/-- The code of the first check that fails, 0 where none does (`60_exceptions.md` R202). -/
def firstCode : List (Bool × ErrorCode) → BitVec 4
  | [] => 0
  | (true, e) :: _ => codeOf e
  | (false, _) :: rest => firstCode rest

/-! ## The byte-level form of a body (`42_bit_packer.md` R150) -/

/-- Set one bit of a body. -/
def setBit (body : List Byte) (w : WordWidth) (i : Nat) : List Byte :=
  body.modify (byteIndex i w) (· ||| (1 : Byte) <<< bitInByte i w)

/-- A zero body in which the bit of each true index below `n` has been set, lowest index first. -/
def byteLevelBody (bit : Nat → Bool) (n : Nat) (w : WordWidth) : List Byte :=
  (List.range n).foldl (fun body i => if bit i then setBit body w i else body)
    (List.replicate (requiredBytes n w) 0)

/-- Word `k` of a body, as its bytes (`30_encoding.md` R90). -/
def wordSlice (body : List Byte) (w : WordWidth) (k : Nat) : List Byte :=
  (body.drop (k * wbytes w)).take (wbytes w)

/-- The length of a prefix, told from its first byte alone (`30_encoding.md` R94). -/
def prefixBytesFrom (b0 : Byte) : Nat :=
  match b0.toNat % 4 with
  | 0 => 1
  | 1 => 2
  | 2 => 4
  | _ => 1 + (b0.toNat / 4 + 4)

end Sys2Proof.Machine
end

