-- ==== Sys2Proof/Certificates/Slice0/Obligations.lean ====
section
/-!
DEFINITION. The statements about the BSPU, for the provers. Each docstring names the rules of spec/ it
comes from, or the log entry where it states the model's own choice.
-/

open Sys2Proof Sys2Proof.Machine

/-! ## Command words -/

/-- `30_encoding.md` R81, R95, R97: a word decodes to a command exactly when it is that command's word. So
no bit of an encoding is dropped, and no other word runs as a command. -/
def Obligations.DecodeExactlyInvertsEncode : Prop :=
  ∀ (c : Reg32) (i : Instr), decode c = .ok i ↔ c = encode i

/-- `30_encoding.md` R95: a word is illegal exactly when one of the four conditions on its fields holds
(OP 8 to 15, ORDER = 1, a bit of 31:9, a field the command does not take); equally when its OP is 8 to
15 or `(c & mask(OP)) != match(OP)`; and the engine's step on an illegal word raises IllegalCommand and
does nothing else. -/
def Obligations.IllegalWordsRaiseIllegalCommand : Prop :=
  (∀ c : Reg32, (∃ e, decode c = .error e) ↔ (CmdFields.ofWord c).WellFormed = false) ∧
  (∀ c : Reg32, (∃ e, decode c = .error e) ↔
    (8 ≤ opOf c ∨ ∃ m, maskOf (opOf c) = some m ∧ c &&& m ≠ matchOf (opOf c))) ∧
  ∀ s : State, s.busy = true → s.resetLine = false →
    (CmdFields.ofWord s.cmd).WellFormed = false →
    ∃ t, engineStep s = .next t ∧ Ended t 5 ∧ SameSurroundings s t ∧ t.mem = s.mem ∧
      t.len = s.len ∧ t.res0 = s.res0 ∧ t.res1 = s.res1

/-- `60_exceptions.md` R201: the word is checked first, whatever the registers and MEM hold, and an
illegal word completes with code 5 having read no MEM and written nothing but STATUS. Reading no MEM is
said by running the same step over any other MEM. -/
def Obligations.IllegalWordReadsAndWritesNothing : Prop :=
  ∀ (s : State) (m : Memory), s.busy = true → s.resetLine = false → s.EngineNext →
    (∃ e, decode s.cmd = .error e) →
    step { s with mem := m } =
      .next { s with
        mem := m, moves := s.moves.tail, ecode := 5, busy := false, done := true, raced := false }

/-- `30_encoding.md` R97, R99: words the spec writes out, decoded. -/
def Obligations.WrittenWordsDecode : Prop :=
  decode 0x00000096 = .ok (.encode .w16 .store) ∧
  decode 0x00000057 = .ok (.decode .w16 true .lane) ∧
  decode 0x00000033 = .ok (.rbytes .w64) ∧
  decode 0x000000E5 = .ok (.unpack .w32 true .store) ∧
  decode 0x00000094 = .ok (.pack .w16 .store) ∧
  decode 0x00000000 = .ok .nop ∧
  decode 0x00000001 = .ok .lenc ∧
  decode 0x00000002 = .ok .ldec

/-! ## The length codec -/

/-- `40_length_codec.md` R124: a prefix decodes to its value whatever follows it, and every proper
initial part of it, the empty one included, is truncated. -/
def Obligations.PrefixRoundTrip : Prop :=
  ∀ n : Nat, n < 2 ^ 32 →
    (∀ t : List Byte, lenDecode (lenEncode n ++ t) = .ok (n, (lenEncode n).length)) ∧
    ∀ k : Nat, k < (lenEncode n).length →
      lenDecode ((lenEncode n).take k) = .error .truncatedLengthPrefix

/-- `40_length_codec.md` R120, `30_encoding.md` R88: the four size classes, each by the length of the
prefix and its little-endian value; class 3 has the first byte 3 and four value bytes. -/
def Obligations.PrefixSizeClasses : Prop :=
  ∀ n : Nat,
    (n < 2 ^ 6 → (lenEncode n).length = 1 ∧ le (lenEncode n) = n * 4 + 0) ∧
    (2 ^ 6 ≤ n ∧ n < 2 ^ 14 → (lenEncode n).length = 2 ∧ le (lenEncode n) = n * 4 + 1) ∧
    (2 ^ 14 ≤ n ∧ n < 2 ^ 30 → (lenEncode n).length = 4 ∧ le (lenEncode n) = n * 4 + 2) ∧
    (2 ^ 30 ≤ n ∧ n < 2 ^ 32 →
      (lenEncode n).length = 5 ∧ (lenEncode n).head? = some 0x03 ∧ le ((lenEncode n).drop 1) = n)

/-- `30_encoding.md` R88, `40_length_codec.md` R123: the encoder's prefix is never longer than any prefix
that decodes to the same value, though the decoder accepts longer ones. -/
def Obligations.PrefixIsMinimal : Prop :=
  (∀ (s : List Byte) (n p : Nat), lenDecode s = .ok (n, p) → (lenEncode n).length ≤ p) ∧
  lenDecode [0x01, 0x00] = .ok (0, 2) ∧
  lenDecode [0x07, 0x01, 0x00, 0x00, 0x00, 0x00] = .ok (1, 6)

/-- `30_encoding.md` R94, `40_length_codec.md` R121: the first byte alone tells how many bytes the prefix
takes; with fewer it is truncated; a value that is read fits 32 bits; and the only other failure is a
class-3 value of 2^32 or more. -/
def Obligations.FirstByteTellsPrefixLength : Prop :=
  ∀ (b0 : Byte) (rest : List Byte),
    (1 ≤ prefixBytesFrom b0 ∧ prefixBytesFrom b0 ≤ 68) ∧
    (lenDecode (b0 :: rest) = .error .truncatedLengthPrefix ↔
      rest.length + 1 < prefixBytesFrom b0) ∧
    (lenDecode (b0 :: rest) = .error .lengthOverflow ↔
      b0.toNat % 4 = 3 ∧ prefixBytesFrom b0 ≤ rest.length + 1 ∧
        2 ^ 32 ≤ le (rest.take (prefixBytesFrom b0 - 1))) ∧
    (∀ e, lenDecode (b0 :: rest) = .error e → e = .truncatedLengthPrefix ∨ e = .lengthOverflow) ∧
    ∀ n p, lenDecode (b0 :: rest) = .ok (n, p) → p = prefixBytesFrom b0 ∧ n < 2 ^ 32

/-! ## The footprint -/

/-- `41_padding_calculator.md` R143: for a fixed width the footprint is non-decreasing, of `k` full words
it is `k * (W/8)`, and on each block `(k-1)*W < n <= k*W` it is `k * (W/8)`. -/
def Obligations.FootprintIsMonotone : Prop :=
  ∀ w : WordWidth,
    (∀ m n : Nat, m ≤ n → requiredBytes m w ≤ requiredBytes n w) ∧
    (∀ k : Nat, requiredBytes (k * wbits w) w = k * (wbits w / 8)) ∧
    ∀ k n : Nat, 1 ≤ k → (k - 1) * wbits w < n → n ≤ k * wbits w →
      requiredBytes n w = k * (wbits w / 8)

/-- `41_padding_calculator.md` R144: the padding of a body is `cdiv(n, W) * W - n` bits, between 0 and
`W - 1`, 0 exactly when `W` divides `n`; and a body is a whole number of words. -/
def Obligations.PaddingIsLessThanAWord : Prop :=
  ∀ (w : WordWidth) (n : Nat),
    n ≤ cdiv n (wbits w) * wbits w ∧
    cdiv n (wbits w) * wbits w - n ≤ wbits w - 1 ∧
    (cdiv n (wbits w) * wbits w - n = 0 ↔ n % wbits w = 0) ∧
    requiredBytes n w % (wbits w / 8) = 0

/-- `41_padding_calculator.md` R141, R145: the footprint of an empty sequence is 0, and of any LEN at
most 2^29, which LEN = 2^32 - 1 reaches at every width. -/
def Obligations.FootprintFitsARegister : Prop :=
  ∀ w : WordWidth,
    requiredBytes 0 w = 0 ∧
    (∀ n : Nat, n < 2 ^ 32 → requiredBytes n w ≤ 2 ^ 29) ∧
    requiredBytes (2 ^ 32 - 1) w = 2 ^ 29

/-! ## Bits in a body -/

/-- `30_encoding.md` R89, R90, R91: logical index `i` is bit `W - 1 - i % W` of the integer value of word
`i / W`, read little-endian; for W = 8 it is bit `7 - i % 8` of byte `i / 8`; and for wider words index 0
of a word is bit 7 of the word's last byte. -/
def Obligations.BitPlacement : Prop :=
  (∀ (w : WordWidth) (body : List Byte) (i : Nat),
    getBit body w i = (le (wordSlice body w (i / wbits w))).testBit (wbits w - 1 - i % wbits w)) ∧
  (∀ i : Nat, byteIndex i .w8 = i / 8 ∧ bitInByte i .w8 = 7 - i % 8) ∧
  ∀ (w : WordWidth) (k : Nat), w ≠ .w8 →
    byteIndex (k * wbits w) w = k * wbytes w + wbytes w - 1 ∧ bitInByte (k * wbits w) w = 7

/-- `42_bit_packer.md` R150: the body has `required_bytes(N, W)` bytes; word `k` has the value the sum
over its offsets gives; it is the byte-level form; and every padding bit is 0. -/
def Obligations.PackingFormsAgree : Prop :=
  ∀ (bit : Nat → Bool) (n : Nat) (w : WordWidth),
    (packBody bit n w).length = requiredBytes n w ∧
    packBody bit n w = byteLevelBody bit n w ∧
    (∀ k, k < cdiv n (wbits w) →
      le (wordSlice (packBody bit n w) w k) =
        ((List.range (wbits w)).map fun o =>
          if k * wbits w + o < n ∧ bit (k * wbits w + o) = true then 2 ^ (wbits w - 1 - o)
          else 0).sum) ∧
    ∀ i, n ≤ i → getBit (packBody bit n w) w i = false

/-- `42_bit_packer.md` R157, round trip and clean padding: every packed bit reads back, and no packed
body fails the strict check. -/
def Obligations.PackedBitsReadBack : Prop :=
  ∀ (bit : Nat → Bool) (n : Nat) (w : WordWidth),
    (∀ i, i < n → getBit (packBody bit n w) w i = bit i) ∧
    paddingNonZero (packBody bit n w) n w = false

/-- `42_bit_packer.md` R157, canonical determinism: inputs with equal logical content give byte-identical
bodies, whatever their formats and whatever their padding holds. -/
def Obligations.PackingIsCanonical : Prop :=
  ∀ (fmt fmt' : MemFormat) (a b : List Byte) (n : Nat) (w : WordWidth),
    (∀ i, i < n → inBits fmt a w i = inBits fmt' b w i) →
    packBody (inBits fmt a w) n w = packBody (inBits fmt' b w) n w

/-- `42_bit_packer.md` R153, R154: the strict check sees the padding alone; a STORE output has the same
logical bits, its padding cleared, and is the body itself when the padding was clean; a LANE output is
0x01 or 0x00 for each index. -/
def Obligations.UnpackedOutput : Prop :=
  ∀ (body : List Byte) (n : Nat) (w : WordWidth), body.length = requiredBytes n w →
    (paddingNonZero body n w = true ↔
      ∃ i, n ≤ i ∧ i < cdiv n (wbits w) * wbits w ∧ getBit body w i = true) ∧
    (∀ i, i < n → getBit (outBytes .store body n w) w i = getBit body w i) ∧
    (∀ i, n ≤ i → getBit (outBytes .store body n w) w i = false) ∧
    (paddingNonZero body n w = false → outBytes .store body n w = body) ∧
    (outBytes .lane body n w).length = n ∧
    ∀ i, i < n → (outBytes .lane body n w)[i]? = some (if getBit body w i then 0x01 else 0x00)

/-! ## The bit-sequence codec -/

/-- `43_bitseq_codec.md` R174: an encoding decodes to its length and its bits, in either mode and
whatever follows it, provided its body fits the address space. -/
def Obligations.SequenceRoundTrip : Prop :=
  ∀ (addrW : Nat) (w : WordWidth) (n : Nat) (bit : Nat → Bool) (strict : Bool) (t : List Byte),
    n < 2 ^ 32 → requiredBytes n w ≤ 2 ^ addrW →
    ∃ body, decodeFn addrW (encodingOf bit n w ++ t) w strict
        = .ok ⟨n, (lenEncode n).length, body⟩ ∧
      ∀ i, i < n → getBit body w i = bit i

/-- `43_bitseq_codec.md` R175: an encoding less its last byte never decodes: its body is truncated, or,
where it has none, its prefix. The premise that the body fits the address space is R174's; without it
the same input is never accepted either. -/
def Obligations.TruncatedEncodingFails : Prop :=
  ∀ (addrW : Nat) (w : WordWidth) (n : Nat) (bit : Nat → Bool) (strict : Bool), n < 2 ^ 32 →
    (requiredBytes n w ≤ 2 ^ addrW →
      decodeFn addrW (encodingOf bit n w).dropLast w strict
        = .error (if requiredBytes n w = 0 then .truncatedLengthPrefix else .truncatedBody)) ∧
    ∃ e, decodeFn addrW (encodingOf bit n w).dropLast w strict = .error e

/-- `43_bitseq_codec.md` R180, `42_bit_packer.md` R159: where the two widths give bodies of equal length,
which fits the address space (R173's bound, at every `ADDR_W`), decoding under the wrong width is not detected in lenient mode, and in strict mode only by a set bit in
the wrong width's padding; so the all-false sequence decodes with its meaning intact. A 9-bit sequence
takes 3, 3, 5 and 9 bytes. -/
def Obligations.WidthMismatchIsNotDetected : Prop :=
  (∀ (addrW : Nat) (w v : WordWidth) (n : Nat) (bit : Nat → Bool), n < 2 ^ 32 →
    requiredBytes n w = requiredBytes n v → requiredBytes n v ≤ 2 ^ addrW →
    decodeFn addrW (encodingOf bit n w) v false
      = .ok ⟨n, (lenEncode n).length, packBody bit n w⟩ ∧
    decodeFn addrW (encodingOf bit n w) v true
      = (if paddingNonZero (packBody bit n w) n v then .error .nonZeroPadding
        else .ok ⟨n, (lenEncode n).length, packBody bit n w⟩) ∧
    ((∀ i, bit i = false) → paddingNonZero (packBody bit n w) n v = false ∧
      ∀ i, getBit (packBody bit n w) v i = false)) ∧
  ∀ bit : Nat → Bool,
    (encodingOf bit 9 .w8).length = 3 ∧ (encodingOf bit 9 .w16).length = 3 ∧
      (encodingOf bit 9 .w32).length = 5 ∧ (encodingOf bit 9 .w64).length = 9

/-! ## Each command's result, completion and frame -/

/-- `44_control.md` R190: NOP is the word 0; it completes with code 0, changes nothing else, and raises
IRQ when IE is 1. -/
def Obligations.NopCompletes : Prop :=
  encode .nop = 0 ∧
  ∀ s : State, ∃ t, exec .nop s = .next t ∧ Ended t 0 ∧ SameSurroundings s t ∧ t.len = s.len ∧
    t.res0 = s.res0 ∧ t.res1 = s.res1 ∧ t.mem = s.mem ∧ t.irq = s.ie

/-- `40_length_codec.md` R122: LENC writes the prefix of LEN at DST when it fits in MEM. -/
def Obligations.LencWritesPrefix : Prop :=
  ∀ s : State, s.inRange s.dst.toNat (lenEncode s.len.toNat).length →
    ∃ t, exec .lenc s = .next t ∧ Ended t 0 ∧ SameSurroundings s t ∧ t.len = s.len ∧
      t.res0.toNat = (lenEncode s.len.toNat).length ∧ t.res1 = 0 ∧
      Stored s t s.dst.toNat (lenEncode s.len.toNat)

/-- `40_length_codec.md` R125: LDEC puts the value of the prefix at SRC in LEN and writes no MEM. -/
def Obligations.LdecReadsPrefix : Prop :=
  ∀ (s : State) (n p : Nat), s.inRange s.src.toNat s.srcAvail.toNat →
    lenDecode (availableBytes s) = .ok (n, p) →
    ∃ t, exec .ldec s = .next t ∧ Ended t 0 ∧ SameSurroundings s t ∧ t.len.toNat = n ∧
      t.res0.toNat = p ∧ t.res1 = 0 ∧ t.mem = s.mem

/-- `41_padding_calculator.md` R142: RBYTES reports the footprint and the number of words of LEN bits; it
always completes and touches no MEM. -/
def Obligations.RbytesReportsFootprint : Prop :=
  ∀ (w : WordWidth) (s : State),
    ∃ t, exec (.rbytes w) s = .next t ∧ Ended t 0 ∧ SameSurroundings s t ∧ t.len = s.len ∧
      t.res0.toNat = requiredBytes s.len.toNat w ∧ t.res1.toNat = cdiv s.len.toNat (wbits w) ∧
      t.mem = s.mem

/-- `42_bit_packer.md` R152: PACK writes the body of the LEN bits at SRC to DST, when both regions fit in
MEM and do not overlap. -/
def Obligations.PackWritesBody : Prop :=
  ∀ (w : WordWidth) (fmt : MemFormat) (s : State),
    let n := s.len.toNat
    let ss := formatSize fmt n w
    let rb := requiredBytes n w
    s.inRange s.src.toNat ss → s.inRange s.dst.toNat rb →
    ¬ overlap s.src.toNat ss s.dst.toNat rb →
    ∃ t, exec (.pack w fmt) s = .next t ∧ Ended t 0 ∧ SameSurroundings s t ∧ t.len = s.len ∧
      t.res0.toNat = rb ∧ t.res1 = 0 ∧
      Stored s t s.dst.toNat
        (packBody (inBits fmt (Memory.readBytes s.mem s.src.toNat ss) w) n w)

/-- `42_bit_packer.md` R156: UNPACK writes the LEN bits of the body at SRC to DST, when the body is
available, clean if STRICT is 1, and the regions fit and do not overlap. -/
def Obligations.UnpackWritesBits : Prop :=
  ∀ (w : WordWidth) (strict : Bool) (fmt : MemFormat) (s : State),
    let n := s.len.toNat
    let rb := requiredBytes n w
    let ds := formatSize fmt n w
    let body := Memory.readBytes s.mem s.src.toNat rb
    s.inRange s.src.toNat s.srcAvail.toNat → rb ≤ s.srcAvail.toNat →
    (strict = true → paddingNonZero body n w = false) →
    s.inRange s.dst.toNat ds → ¬ overlap s.src.toNat rb s.dst.toNat ds →
    ∃ t, exec (.unpack w strict fmt) s = .next t ∧ Ended t 0 ∧ SameSurroundings s t ∧
      t.len = s.len ∧ t.res0.toNat = rb ∧ t.res1.toNat = ds ∧
      Stored s t s.dst.toNat (outBytes fmt body n w)

/-- `43_bitseq_codec.md` R172: ENCODE writes the prefix of LEN and the body of the LEN bits at SRC to
DST, when the regions fit and do not overlap. -/
def Obligations.EncodeWritesSequence : Prop :=
  ∀ (w : WordWidth) (fmt : MemFormat) (s : State),
    let n := s.len.toNat
    let p := (lenEncode n).length
    let rb := requiredBytes n w
    let ss := formatSize fmt n w
    s.inRange s.src.toNat ss → s.inRange s.dst.toNat (p + rb) →
    ¬ overlap s.src.toNat ss s.dst.toNat (p + rb) →
    ∃ t, exec (.encode w fmt) s = .next t ∧ Ended t 0 ∧ SameSurroundings s t ∧ t.len = s.len ∧
      t.res0.toNat = p + rb ∧ t.res1.toNat = p ∧
      Stored s t s.dst.toNat
        (lenEncode n ++ packBody (inBits fmt (Memory.readBytes s.mem s.src.toNat ss) w) n w)

/-- `43_bitseq_codec.md` R173, R176: DECODE decodes all the bytes available at SRC as `DecodeFn` does,
writes the bits to DST and their number to LEN, when the output fits and does not overlap the bytes
consumed. -/
def Obligations.DecodeReadsSequence : Prop :=
  ∀ (w : WordWidth) (strict : Bool) (fmt : MemFormat) (s : State) (d : Decoded),
    let used := d.p + requiredBytes d.n w
    let ds := formatSize fmt d.n w
    s.inRange s.src.toNat s.srcAvail.toNat →
    decodeFn s.params.addrW (availableBytes s) w strict = .ok d →
    s.inRange s.dst.toNat ds → ¬ overlap s.src.toNat used s.dst.toNat ds →
    ∃ t, exec (.decode w strict fmt) s = .next t ∧ Ended t 0 ∧ SameSurroundings s t ∧
      t.len.toNat = d.n ∧ t.res0.toNat = used ∧ t.res1.toNat = d.p ∧
      Stored s t s.dst.toNat (outBytes fmt d.body d.n w)

/-! ## All commands -/

/-- `60_exceptions.md` R202: every command reports the first check that fails in its order, the word
check first, and code 0 where none fails. -/
def Obligations.ChecksAreInOrder : Prop :=
  (∀ (i : Instr) (s : State), ∃ t, exec i s = .next t ∧ t.ecode = firstCode (checksOf i s)) ∧
  ∀ s : State, s.busy = true → s.resetLine = false → (∃ e, decode s.cmd = .error e) →
    ∃ t, engineStep s = .next t ∧ t.ecode = codeOf .illegalCommand

/-- `60_exceptions.md` R205: every command ends; one that ends with a code other than 0 has written no
byte of MEM and none of LEN, RES0 and RES1; and the next accepted command sets ECODE to 0, with nothing
to clear first. -/
def Obligations.ErrorsAreAllOrNothing : Prop :=
  ∀ (i : Instr) (s : State), ∃ t, exec i s = .next t ∧ t.busy = false ∧
    (t.ecode ≠ 0 →
      t.mem = s.mem ∧ t.len = s.len ∧ t.res0 = s.res0 ∧ t.res1 = s.res1 ∧ SameSurroundings s t) ∧
    ∀ v : Reg32, (t.writeReg .cmd v).busy = true ∧ (t.writeReg .cmd v).cmd = v ∧
      (t.writeReg .cmd v).ecode = 0

/-- `60_exceptions.md` R208: NOP, LENC, RBYTES, PACK and ENCODE end with no codec error, codes 1 to 4;
LDEC, UNPACK and DECODE with no code above 7. Code 5 comes from the word check, before any of them. -/
def Obligations.EncodeSideHasNoCodecErrors : Prop :=
  ∀ (i : Instr) (s t : State), exec i s = .next t →
    t.ecode.toNat ≤ 7 ∧ t.ecode ≠ 5 ∧
    ((∀ w b f, i ≠ .unpack w b f) → (∀ w b f, i ≠ .decode w b f) → i ≠ .ldec →
      t.ecode = 0 ∨ t.ecode = 6 ∨ t.ecode = 7)

/-- `10_state.md` R40, `20_memory.md` R67: what no command changes. LEN changes only in LDEC and DECODE,
RES0 and RES1 not in NOP, and every byte of MEM outside `[DST, DST + size)` reads as before, with the
size its rule gives (for DECODE the size of its output, R176; log entry 27). -/
def Obligations.CommandFrame : Prop :=
  ∀ (i : Instr) (s t : State), exec i s = .next t →
    SameSurroundings s t ∧ t.busy = false ∧ t.done = true ∧
    (writesLen i = false → t.len = s.len) ∧
    (i = .nop → t.res0 = s.res0 ∧ t.res1 = s.res1) ∧
    ∀ c, c < s.dst.toNat ∨ s.dst.toNat + writtenSize i s t ≤ c →
      Memory.read t.mem c = Memory.read s.mem c

/-- `43_bitseq_codec.md` R177: a DECODE that succeeds depends on no byte of MEM but those it consumes:
over any MEM that agrees on `[SRC, SRC + RES0)` it succeeds with the same LEN, RES0, RES1 and output. -/
def Obligations.DecodeReadsOnlyConsumedBytes : Prop :=
  ∀ (w : WordWidth) (strict : Bool) (fmt : MemFormat) (s t : State) (m : Memory),
    exec (.decode w strict fmt) s = .next t → t.ecode = 0 →
    (∀ c, s.src.toNat ≤ c → c < s.src.toNat + t.res0.toNat →
      Memory.read m c = Memory.read s.mem c) →
    ∃ u, exec (.decode w strict fmt) { s with mem := m } = .next u ∧ u.ecode = 0 ∧
      u.len = t.len ∧ u.res0 = t.res0 ∧ u.res1 = t.res1 ∧
      ∀ c, s.dst.toNat ≤ c → c < s.dst.toNat + formatSize fmt t.len.toNat w →
        Memory.read u.mem c = Memory.read t.mem c

/-- `43_bitseq_codec.md` R170, R174, R178, on the machine: what a successful ENCODE wrote, a DECODE of
the same width reads back in either mode: LEN, the bytes consumed, the prefix bytes, and every bit, from
whichever format to whichever format. -/
def Obligations.EncodeThenDecode : Prop :=
  ∀ (w : WordWidth) (fmt fmt' : MemFormat) (strict : Bool) (s t u : State),
    exec (.encode w fmt) s = .next t → t.ecode = 0 →
    u.params = s.params → u.src = s.dst → t.res0.toNat ≤ u.srcAvail.toNat →
    u.inRange u.src.toNat u.srcAvail.toNat →
    (∀ c, s.dst.toNat ≤ c → c < s.dst.toNat + t.res0.toNat →
      Memory.read u.mem c = Memory.read t.mem c) →
    u.inRange u.dst.toNat (formatSize fmt' s.len.toNat w) →
    ¬ overlap u.src.toNat t.res0.toNat u.dst.toNat (formatSize fmt' s.len.toNat w) →
    ∃ v, exec (.decode w strict fmt') u = .next v ∧ Ended v 0 ∧ v.len = s.len ∧
      v.res0 = t.res0 ∧ v.res1 = t.res1 ∧
      ∀ i, i < s.len.toNat →
        inBits fmt' (Memory.readBytes v.mem u.dst.toNat (formatSize fmt' s.len.toNat w)) w i
          = inBits fmt (Memory.readBytes s.mem s.src.toNat (formatSize fmt s.len.toNat w)) w i

/-! ## Steps -/

/-- `00_scope.md` R16, `60_exceptions.md` R204: when the engine is next to move and a legal command is
running, one step is that command's meaning, the engine's turn taken off the moves. -/
def Obligations.StepRunsDecodedCommand : Prop :=
  ∀ (s : State) (i : Instr), s.EngineNext → s.Ready i → step s = exec i s.taken

/-- The model's schedule (log entry 3; `00_scope.md` R19, `60_exceptions.md` R213): a step is the oldest
move to come, made by its agent, and with none to come the engine's turn. -/
def Obligations.StepMakesTheOldestMove : Prop :=
  (∀ (s : State) (m : Move) (ms : List Move), s.moves = m :: ms →
    step s = runMove m { s with moves := ms }) ∧
  ∀ s : State, s.moves = [] → step s = engineStep s

/-- `60_exceptions.md` R204: with plain memory behind the port, the engine's turn completes whatever
command is running, in whatever state: BUSY is 0 and DONE is 1, OVF is unchanged, IRQ follows IE. While
BUSY is 0 it is not enabled, and such a turn changes nothing (the model's reading, log entry 10). -/
def Obligations.EngineTurnCompletes : Prop :=
  ∀ s : State, s.resetLine = false → s.params.nonRam = [] →
    (s.busy = true → ∃ t, engineStep s = .next t ∧ t.busy = false ∧ t.done = true ∧
      t.ovf = s.ovf ∧ t.cmd = s.cmd ∧ t.irq = s.ie) ∧
    (s.busy = false → engineStep s = .next s)

/-- `70_reset_and_hazards.md` R230: only the engine's completion or the reset input takes BUSY from 1 to
0. -/
def Obligations.OnlyCompletionOrResetClearsBusy : Prop :=
  ∀ s t : State, step s = .next t → s.busy = true → t.busy = false →
    (s.EngineNext ∧ s.resetLine = false ∧ t.done = true) ∨ s.moves.head? = some .assertReset

/-- `10_state.md` R36, R37, R38: while a command runs, no step changes the latched word or an operand
register, nor RES0, RES1, DONE or ECODE, until the step that ends it. -/
def Obligations.RunningCommandIsUndisturbed : Prop :=
  ∀ s t : State, step s = .next t → s.busy = true → t.busy = true →
    t.cmd = s.cmd ∧ t.len = s.len ∧ t.src = s.src ∧ t.srcAvail = s.srcAvail ∧ t.dst = s.dst ∧
      t.res0 = s.res0 ∧ t.res1 = s.res1 ∧ t.ecode = s.ecode ∧
      (s.done = false → t.done = false)

/-- `10_state.md` R24, R36, R41: only a write of 1 to bit 3 of STATUS or reset clears OVF, and only a
write of CMD, LEN, SRC, SRC_AVAIL or DST while BUSY is 1 sets it. -/
def Obligations.OvfIsSticky : Prop :=
  ∀ s t : State, step s = .next t →
    (s.ovf = true → t.ovf = false →
      s.moves.head? = some .assertReset ∨
        ∃ v, s.moves.head? = some (.regWrite (s.params.base + 0x04) 4 v) ∧ v.getLsbD 3 = true) ∧
    (s.ovf = false → t.ovf = true →
      s.busy = true ∧ ∃ off v, s.moves.head? = some (.regWrite (s.params.base + off) 4 v) ∧
        (off = 0x00 ∨ off = 0x0C ∨ off = 0x10 ∨ off = 0x14 ∨ off = 0x18))

/-! ## The register window -/

/-- `10_state.md` R35: a write of CMD while BUSY is 0 is accepted, for every value. The command has not
been raced (the model's own field). -/
def Obligations.CommandWriteAccepted : Prop :=
  ∀ (s : State) (v : Reg32), s.busy = false → s.resetLine = false →
    hostRegWrite (s.params.base + 0x00) 4 v s
      = .next { s with cmd := v, busy := true, done := false, ecode := 0, raced := false }

/-- `10_state.md` R36, R41: a write of CMD, LEN, SRC, SRC_AVAIL or DST while BUSY is 1 is discarded and
sets OVF. -/
def Obligations.BusyWritesAreDiscarded : Prop :=
  ∀ (s : State) (off : Nat) (v : Reg32), s.busy = true → s.resetLine = false →
    off = 0x00 ∨ off = 0x0C ∨ off = 0x10 ∨ off = 0x14 ∨ off = 0x18 →
    hostRegWrite (s.params.base + off) 4 v s = .next { s with ovf := true }

/-- `10_state.md` R25: a write of STATUS clears DONE if bit 1 is 1 and OVF if bit 3 is 1 and does nothing
else, whatever BUSY is. -/
def Obligations.StatusWriteClears : Prop :=
  ∀ (s : State) (v : Reg32), s.resetLine = false →
    ∃ t, hostRegWrite (s.params.base + 0x04) 4 v s = .next t ∧
      t.done = (if v.getLsbD 1 then false else s.done) ∧
      t.ovf = (if v.getLsbD 3 then false else s.ovf) ∧
      t = { s with done := t.done, ovf := t.ovf }

/-- `10_state.md` R24: what STATUS reads as, bit by bit. -/
def Obligations.StatusLayout : Prop :=
  ∀ s : State,
    s.statusWord.getLsbD 0 = s.busy ∧ s.statusWord.getLsbD 1 = s.done ∧
    s.statusWord.getLsbD 2 = decide (s.ecode ≠ 0) ∧ s.statusWord.getLsbD 3 = s.ovf ∧
    s.statusWord.extractLsb' 4 4 = s.ecode ∧ s.statusWord.extractLsb' 8 24 = 0

/-- `10_state.md` R26, R39; `60_exceptions.md` R210, R211: a write of CTRL sets IE to bit 0 whatever BUSY
is, the rest of CTRL reads 0, and IRQ is at once IE and DONE: it follows IE, falls with DONE, on
acceptance and on reset, and rises on completion when IE is 1. -/
def Obligations.CtrlDrivesIrq : Prop :=
  ∀ (s : State) (v : Reg32), s.resetLine = false →
    hostRegWrite (s.params.base + 0x08) 4 v s = .next { s with ie := v.getLsbD 0 } ∧
    ({ s with ie := v.getLsbD 0 } : State).readReg .ctrl = (v &&& 1) ∧
    ({ s with ie := v.getLsbD 0 } : State).irq = (v.getLsbD 0 && s.done) ∧
    (s.clearStatus 0x02).irq = false ∧ (s.accept v).irq = false ∧
    s.clearRegisters.irq = false ∧ ∀ code, (s.complete code).irq = s.ie

/-- `10_state.md` R21, R27 to R30: LEN, SRC, SRC_AVAIL and DST each hold all 32 bits the host writes
while BUSY is 0, and a write of one leaves the others and everything else alone. -/
def Obligations.OperandRegistersHoldWrites : Prop :=
  ∀ (s : State) (v : Reg32), s.busy = false → s.resetLine = false →
    hostRegWrite (s.params.base + 0x0C) 4 v s = .next { s with len := v } ∧
    hostRegWrite (s.params.base + 0x10) 4 v s = .next { s with src := v } ∧
    hostRegWrite (s.params.base + 0x14) 4 v s = .next { s with srcAvail := v } ∧
    hostRegWrite (s.params.base + 0x18) 4 v s = .next { s with dst := v }

/-- `10_state.md` R31, R32, R33: a host write of RES0, of RES1 or at a reserved offset does nothing, and
a reserved offset reads as 0. -/
def Obligations.ReadOnlyOffsetsIgnoreWrites : Prop :=
  ∀ (s : State) (k : Nat) (v : Reg32), 7 ≤ k → k < 16 →
    hostRegWrite (s.params.base + 4 * k) 4 v s = .next s ∧
    (9 ≤ k → hostRegRead (s.params.base + 4 * k) 4 s = .next { s with reply := .reg 0 })

/-- `10_state.md` R34: the host reaches the registers only by 32-bit accesses at multiples of 4 inside
the window; a read changes nothing but what the host is told; a narrower, wider or misaligned access is
refused. That an access outside the window is refused too is the model's choice (DESIGN CHOICE, log
entry 11). -/
def Obligations.OnlyAlignedWordAccesses : Prop :=
  ∀ (s : State) (addr size : Nat) (v : Reg32),
    ((∃ k, k < 16 ∧ addr = s.params.base + 4 * k) ∧ size = 4 →
      (∃ r, hostRegRead addr size s = .next { s with reply := .reg r }) ∧
      ∃ t, hostRegWrite addr size v s = .next t) ∧
    (¬ ((∃ k, k < 16 ∧ addr = s.params.base + 4 * k) ∧ size = 4) →
      hostRegRead addr size s = .refused .registerAccess ∧
      hostRegWrite addr size v s = .refused .registerAccess)

/-- `10_state.md` R20, R23, R27 to R32, R37: a host read returns the register's current value. -/
def Obligations.HostReadsCurrentValues : Prop :=
  ∀ s : State,
    hostRegRead (s.params.base + 0x00) 4 s = .next { s with reply := .reg s.cmd } ∧
    hostRegRead (s.params.base + 0x04) 4 s = .next { s with reply := .reg s.statusWord } ∧
    hostRegRead (s.params.base + 0x08) 4 s
      = .next { s with reply := .reg (if s.ie then 1 else 0) } ∧
    hostRegRead (s.params.base + 0x0C) 4 s = .next { s with reply := .reg s.len } ∧
    hostRegRead (s.params.base + 0x10) 4 s = .next { s with reply := .reg s.src } ∧
    hostRegRead (s.params.base + 0x14) 4 s = .next { s with reply := .reg s.srcAvail } ∧
    hostRegRead (s.params.base + 0x18) 4 s = .next { s with reply := .reg s.dst } ∧
    hostRegRead (s.params.base + 0x1C) 4 s = .next { s with reply := .reg s.res0 } ∧
    hostRegRead (s.params.base + 0x20) 4 s = .next { s with reply := .reg s.res1 }

/-! ## MEM and the host's duty -/

/-- `20_memory.md` R66, R71: a bus master's write of an existing plain byte stores exactly that byte, and
its read returns the byte, or, in the running command's output region, the old byte or the one the
command would leave. The model's own: a breach of the duty marks the command as raced (DESIGN CHOICE,
log entry 7), a read of the output region as well as a write (DEDUCED, log entry 23), and the region
guarded for DECODE is its largest (DEDUCED, log entry 6). Nothing else changes. -/
def Obligations.HostMemoryAccess : Prop :=
  ∀ (s : State) (a : Nat) (b : Byte), a < s.memSize → isNonRam s a = false →
    (∃ t, hostMemWrite a b s = .next t ∧ Memory.read t.mem a = b ∧
      (∀ c, c ≠ a → Memory.read t.mem c = Memory.read s.mem c) ∧
      t = { s with mem := t.mem, raced := t.raced } ∧
      ((Move.memWrite a b).KeepsDuty s → t.raced = s.raced) ∧
      (¬ (Move.memWrite a b).KeepsDuty s → t.raced = true)) ∧
    ∃ t, hostMemRead a s = .next t ∧ t = { s with reply := t.reply, raced := t.raced, draws := t.draws } ∧
      ((Move.memRead a).KeepsDuty s →
        t.reply = .byte (Memory.read s.mem a) ∧ t.raced = s.raced) ∧
      ∀ i, s.running = some i → ¬ (Move.memRead a).KeepsDuty s →
        (t.reply = .byte (Memory.read s.mem a) ∨ t.reply = .byte (newByte i s a)) ∧
          t.raced = true

/-- `20_memory.md` R71: while the host keeps its duty, no step makes a command raced. The mark and the
regions of the duty are the model's (log entries 6, 7 and 23). -/
def Obligations.DutyKeepsCommandsUnraced : Prop :=
  ∀ s t : State, step s = .next t → s.raced = false →
    (∀ m, s.moves.head? = some m → m.KeepsDuty s.taken) → t.raced = false

/-- `20_memory.md` R71: a raced command still completes; each byte of its output region, LEN, RES0, RES1
and ECODE (at most 7) are draws, and nothing else changes. The region is the largest, as far as it lies
in MEM (DEDUCED, log entry 6); the draws are the free values of Config at the draw counter, of which
nothing is known (DESIGN CHOICE, log entry 7), so this holds for every value they may have. -/
def Obligations.RacedCommandEndsInDraws : Prop :=
  ∀ (s : State) (i : Instr), s.running = some i → s.resetLine = false → s.raced = true →
    touchesNonRam i s = false →
    let r := clip s (outputRegion i s)
    ∃ t, engineStep s = .next t ∧ t.busy = false ∧ t.done = true ∧ t.raced = false ∧
      t.ecode = (Config.freeCode s.draws).zeroExtend 4 ∧ t.ecode.toNat ≤ 7 ∧
      t.len = Config.freeLen s.draws ∧ t.res0 = Config.freeRes0 s.draws ∧
      t.res1 = Config.freeRes1 s.draws ∧
      (∀ j, j < r.2 → Memory.read t.mem (r.1 + j) = Config.freeByte (s.draws + j)) ∧
      (∀ c, ¬ inside r c → Memory.read t.mem c = Memory.read s.mem c) ∧
      s.draws + r.2 < t.draws ∧
      t = { s with
        busy := false, done := true, raced := false, ecode := t.ecode, len := t.len,
        res0 := t.res0, res1 := t.res1, mem := t.mem, draws := t.draws }

/-- The region the model guards (log entry 6; `20_memory.md` R71, `30_encoding.md` R98): whatever a
command writes lies in its output region at its largest. -/
def Obligations.OutputStaysInLargestRegion : Prop :=
  ∀ (i : Instr) (s t : State), exec i s = .next t →
    writtenSize i s t ≤ (outputRegion i s).2 ∧
    ∀ c, ¬ inside (outputRegion i s) c → Memory.read t.mem c = Memory.read s.mem c

/-! ## Reset and the invariant -/

/-- `70_reset_and_hazards.md` R230, R232: asserting reset puts every register at its reset value, from
any state with plain memory behind the port, and leaves MEM alone when no legal command is running: when
BUSY is 0, and when the running word is illegal, since it would have written nothing (R231). -/
def Obligations.ResetClearsRegisters : Prop :=
  ∀ s : State, s.params.nonRam = [] →
    ∃ t, assertReset s = .next t ∧ (∀ r, t.readReg r = 0) ∧ t.busy = false ∧ t.irq = false ∧
      t.resetLine = true ∧ t.params = s.params ∧ t.moves = s.moves ∧
      (s.running = none → t.mem = s.mem)

/-- `70_reset_and_hazards.md` R230: while reset is asserted, and when it is released, every register
holds its reset value, whatever any agent does (a register write made then has no effect: the model's
reading, log entry 9). -/
def Obligations.ResetHoldsRegisters : Prop :=
  ∀ s t : State, s.Inv → s.resetLine = true → step s = .next t →
    (∀ r, t.readReg r = 0) ∧ t.busy = false ∧ t.irq = false ∧
      (t.resetLine = false → s.moves.head? = some .releaseReset)

/-- `70_reset_and_hazards.md` R231: reset while a command runs abandons it: DONE is not set, no interrupt
is raised, each byte of MEM holds its old value or the one the command would have written, and where
the command would have written nothing nothing changes. -/
def Obligations.ResetAbandonsCommand : Prop :=
  ∀ (s u : State) (i : Instr), s.running = some i → s.raced = false →
    touchesNonRam i s = false → exec i s = .next u →
    ∃ t, assertReset s = .next t ∧ t.busy = false ∧ t.done = false ∧ t.irq = false ∧
      (∀ c, Memory.read t.mem c = Memory.read s.mem c ∨
        Memory.read t.mem c = Memory.read u.mem c) ∧
      ∀ c, c < s.dst.toNat ∨ s.dst.toNat + writtenSize i s u ≤ c →
        Memory.read t.mem c = Memory.read s.mem c

/-- `10_state.md` R44: every register, field and the latched word is 0 after reset, and IRQ is
deasserted; `ADDR_W` is its default (`00_scope.md` R8). -/
def Obligations.ResetState : Prop :=
  (∀ r, State.reset.readReg r = 0) ∧ State.reset.busy = false ∧ State.reset.done = false ∧
    State.reset.ovf = false ∧ State.reset.ecode = 0 ∧ State.reset.err = false ∧
    State.reset.ie = false ∧ State.reset.irq = false ∧ State.reset.params.addrW = 32

/-- The invariant holds in the reset state. -/
def Obligations.InvariantAtReset : Prop := State.reset.Inv

/-- Every step keeps the invariant, from every state that meets it: MEM stays in its canonical form and
inside the address space (`10_state.md` R43), `ADDR_W` stays legal (`00_scope.md` R8), ECODE stays at
most 7 (`10_state.md` R24), DONE and ECODE stay 0 while BUSY is 1 (R35), only a running command is
raced, and while reset is asserted every register holds its reset value
(`70_reset_and_hazards.md` R230). -/
def Obligations.StepKeepsInvariant : Prop :=
  ∀ s t : State, s.Inv → step s = .next t → t.Inv
end

