-- ==== Sys2Proof/Laws/Codec.lean ====
section
/-!
SUPPORT. Sizes and values of the codec's byte sequences: one lemma per function, so that callers need
not unfold it.
-/

namespace Sys2Proof.Machine

/-! ## Widths and footprints -/

theorem wbits_pos (w : WordWidth) : 0 < wbits w := by cases w <;> decide

theorem wbytes_pos (w : WordWidth) : 0 < wbytes w := by cases w <;> decide

theorem wbits_eq (w : WordWidth) : wbits w = 8 * wbytes w := by cases w <;> rfl

theorem cdiv_mul_ge (n : Nat) {b : Nat} (h : 0 < b) : n ≤ cdiv n b * b := by
  have := Nat.div_add_mod (n + b - 1) b
  have hm := Nat.mod_lt (n + b - 1) h
  unfold cdiv
  rw [Nat.mul_comm]
  omega

theorem cdiv_mul_lt (n : Nat) {b : Nat} (h : 0 < b) : cdiv n b * b < n + b := by
  have := Nat.div_add_mod (n + b - 1) b
  unfold cdiv
  rw [Nat.mul_comm]
  omega

theorem requiredBytes_bits (n : Nat) (w : WordWidth) :
    8 * requiredBytes n w = wordCount n w * wbits w := by
  rw [requiredBytes, wbits_eq]
  ring

/-! ## Little-endian bytes -/

@[simp] theorem leBytes_length (v k : Nat) : (leBytes v k).length = k := by
  induction k generalizing v with
  | zero => rfl
  | succ k ih => simp [leBytes, ih]

theorem le_leBytes (v k : Nat) : le (leBytes v k) = v % 256 ^ k := by
  induction k generalizing v with
  | zero => simp [leBytes, le, Nat.mod_one]
  | succ k ih =>
    rw [leBytes, le, ih, BitVec.toNat_ofNat, pow_succ' 256 k, Nat.mod_mul]

theorem le_lt (s : List Byte) : le s < 256 ^ s.length := by
  induction s with
  | nil => simp [le]
  | cons b s ih =>
    have hb := b.isLt
    simp only [le, List.length_cons, pow_succ]
    omega

/-! ## Sizes of what the commands write -/

@[simp] theorem packBody_length (bit : Nat → Bool) (n : Nat) (w : WordWidth) :
    (packBody bit n w).length = requiredBytes n w := by
  simp [packBody, requiredBytes]

@[simp] theorem outBytes_length (fmt : MemFormat) (body : List Byte) (n : Nat) (w : WordWidth) :
    (outBytes fmt body n w).length = formatSize fmt n w := by
  cases fmt <;> simp [outBytes, formatSize]

@[simp] theorem encodingOf_length (bit : Nat → Bool) (n : Nat) (w : WordWidth) :
    (encodingOf bit n w).length = (lenEncode n).length + requiredBytes n w := by
  simp [encodingOf]

theorem classThreeBytes_eq {n : Nat} (h : n < 2 ^ 32) : classThreeBytes n = 4 := by
  have : bitLength n ≤ 32 := by
    unfold bitLength
    split
    · omega
    · have := (Nat.log2_lt ‹_›).2 h
      omega
  unfold classThreeBytes cdiv
  omega

/-- The length of a prefix by size class. -/
theorem lenEncode_length {n : Nat} (h : n < 2 ^ 32) :
    (lenEncode n).length
      = if n < 2 ^ 6 then 1 else if n < 2 ^ 14 then 2 else if n < 2 ^ 30 then 4 else 5 := by
  unfold lenEncode
  split
  · simp
  split
  · simp
  split
  · simp
  · simp [classThreeBytes_eq h]

end Sys2Proof.Machine
end

