-- ==== Sys2Proof/Laws/Memory.lean ====
section
/-!
SUPPORT. The laws of MEM: a read after a write, what a write leaves alone, and that every operation
keeps the canonical form.
-/

namespace Sys2Proof.Machine

variable (m : Memory) (a : Nat) (b : Byte)

/-! ## Reading after forgetting, inserting and writing one byte -/

theorem Memory.read_forget (c : Nat) :
    Memory.read (Memory.forget m a) c = if c = a then blankByte else Memory.read m c := by
  induction m with
  | nil => simp [Memory.forget, Memory.read]
  | cons d m ih =>
    unfold Memory.forget at ih ⊢
    by_cases hd : d.1 = a
    · simp only [List.filter_cons, hd, bne_self_eq_false, Bool.false_eq_true, if_false, ih,
        Memory.read]
      split <;> simp_all [eq_comm]
    · simp only [List.filter_cons, bne_iff_ne, ne_eq, hd, not_false_eq_true, if_true, Memory.read, ih]
      split <;> split <;> simp_all

theorem Memory.read_insert (h : ∀ d ∈ m, d.1 ≠ a) (c : Nat) :
    Memory.read (Memory.insert a b m) c = if c = a then b else Memory.read m c := by
  induction m with
  | nil => simp [Memory.insert, Memory.read, eq_comm]
  | cons d m ih =>
    have hd : d.1 ≠ a := h d (by simp)
    simp only [Memory.insert]
    split
    · simp only [Memory.read]
      split <;> simp_all [eq_comm]
    · simp only [Memory.read, ih fun e he => h e (by simp [he])]
      split <;> split <;> simp_all

theorem Memory.forget_ne : ∀ d ∈ Memory.forget m a, d.1 ≠ a := by
  simp [Memory.forget]

/-- What a byte write does to every read: the one law later proofs cite. -/
theorem Memory.read_write (c : Nat) :
    Memory.read (Memory.write m a b) c = if c = a then b else Memory.read m c := by
  unfold Memory.write
  split
  · simp_all [Memory.read_forget]
  · rw [Memory.read_insert _ _ _ (Memory.forget_ne m a), Memory.read_forget]
    split <;> simp_all

@[simp] theorem Memory.read_write_same : Memory.read (Memory.write m a b) a = b := by
  simp [Memory.read_write]

theorem Memory.read_write_other {c : Nat} (h : c ≠ a) :
    Memory.read (Memory.write m a b) c = Memory.read m c := by
  simp [Memory.read_write, h]

/-! ## Byte sequences -/

@[simp] theorem Memory.readBytes_length (n : Nat) : (Memory.readBytes m a n).length = n := by
  simp [Memory.readBytes]

theorem Memory.readBytes_getD (n j : Nat) (h : j < n) (d : Byte) :
    (Memory.readBytes m a n).getD j d = Memory.read m (a + j) := by
  simp [Memory.readBytes, List.getD, h]

/-- What a sequence write does to every read. -/
theorem Memory.read_writeBytes (v : List Byte) (c : Nat) :
    Memory.read (Memory.writeBytes m a v) c
      = if a ≤ c ∧ c < a + v.length then v.getD (c - a) 0 else Memory.read m c := by
  induction v generalizing m a with
  | nil => simp only [Memory.writeBytes, List.length_nil]; rw [if_neg (by omega)]
  | cons b v ih =>
    rw [Memory.writeBytes, ih, Memory.read_write]
    simp only [List.length_cons]
    by_cases hc : c = a
    · subst hc
      rw [if_neg (by omega), if_pos rfl, if_pos (by omega), Nat.sub_self]
      rfl
    · by_cases hin : a + 1 ≤ c ∧ c < a + 1 + v.length
      · rw [if_pos hin, if_pos (by omega)]
        obtain ⟨k, rfl⟩ : ∃ k, c = a + 1 + k := ⟨c - (a + 1), by omega⟩
        rw [show a + 1 + k - (a + 1) = k by omega, show a + 1 + k - a = k + 1 by omega]
        rfl
      · rw [if_neg hin, if_neg hc, if_neg (by omega)]

theorem Memory.read_writeBytes_outside (v : List Byte) {c : Nat} (h : c < a ∨ a + v.length ≤ c) :
    Memory.read (Memory.writeBytes m a v) c = Memory.read m c := by
  rw [Memory.read_writeBytes, if_neg (by omega)]

theorem Memory.read_writeBytes_inside (v : List Byte) {j : Nat} (h : j < v.length) :
    Memory.read (Memory.writeBytes m a v) (a + j) = v[j] := by
  rw [Memory.read_writeBytes, if_pos (by omega)]
  simp [h]

/-- Reading back a sequence that was written. -/
theorem Memory.readBytes_writeBytes (v : List Byte) :
    Memory.readBytes (Memory.writeBytes m a v) a v.length = v := by
  apply List.ext_getElem (by simp)
  intro j _ h
  simp only [Memory.readBytes, List.getElem_map, List.getElem_range]
  exact Memory.read_writeBytes_inside m a v h

/-! ## The canonical form -/

theorem Memory.forget_wf (h : Memory.Wf m) : Memory.Wf (Memory.forget m a) :=
  ⟨h.1.filter _, fun c hc => h.2 c (List.mem_of_mem_filter hc)⟩

theorem Memory.mem_insert {c : Host.Cell} :
    c ∈ Memory.insert a b m ↔ c = (a, b) ∨ c ∈ m := by
  induction m with
  | nil => simp [Memory.insert]
  | cons d m ih =>
    simp only [Memory.insert]
    split
    · simp
    · simp only [List.mem_cons, ih]
      tauto

theorem Memory.insert_wf (h : Memory.Wf m) (hb : b ≠ blankByte) (ha : ∀ d ∈ m, d.1 ≠ a) :
    Memory.Wf (Memory.insert a b m) := by
  refine ⟨?_, fun c hc => ?_⟩
  · obtain ⟨hs, -⟩ := h
    induction m with
    | nil => simp [Memory.insert]
    | cons d m ih =>
      have hd : d.1 ≠ a := ha d (by simp)
      obtain ⟨hd', hs'⟩ := List.pairwise_cons.1 hs
      simp only [Memory.insert]
      split
      · rename_i hlt
        refine List.pairwise_cons.2 ⟨fun e he => ?_, hs⟩
        rcases List.mem_cons.1 he with rfl | he
        · exact hlt
        · exact hlt.trans (hd' e he)
      · refine List.pairwise_cons.2 ⟨fun e he => ?_, ih (fun e he => ha e (by simp [he])) hs'⟩
        rcases (Memory.mem_insert m a b).1 he with rfl | he
        · dsimp only; omega
        · exact hd' e he
  · rcases (Memory.mem_insert m a b).1 hc with rfl | hc
    · exact hb
    · exact h.2 c hc

theorem Memory.write_wf (h : Memory.Wf m) : Memory.Wf (Memory.write m a b) := by
  unfold Memory.write
  split
  · exact Memory.forget_wf m a h
  · exact Memory.insert_wf _ a b (Memory.forget_wf m a h) ‹_› (Memory.forget_ne m a)

theorem Memory.writeBytes_wf (v : List Byte) (h : Memory.Wf m) :
    Memory.Wf (Memory.writeBytes m a v) := by
  induction v generalizing m a with
  | nil => exact h
  | cons b v ih => exact ih _ _ (Memory.write_wf m a b h)

theorem Memory.write_within {size : Nat} (h : Memory.Within m size) (ha : a < size) :
    Memory.Within (Memory.write m a b) size := by
  have hf : Memory.Within (Memory.forget m a) size := fun c hc => h c (List.mem_of_mem_filter hc)
  intro c hc
  unfold Memory.write at hc
  split at hc
  · exact hf c hc
  · rcases (Memory.mem_insert _ a b).1 hc with rfl | hc
    · exact ha
    · exact hf c hc

theorem Memory.writeBytes_within {size : Nat} (v : List Byte) (h : Memory.Within m size)
    (ha : v = [] ∨ a + v.length ≤ size) : Memory.Within (Memory.writeBytes m a v) size := by
  induction v generalizing m a with
  | nil => exact h
  | cons b v ih =>
    have hl : a + (v.length + 1) ≤ size := by simpa using ha
    exact ih _ _ (Memory.write_within m a b h (by omega)) (.inr (by omega))

end Sys2Proof.Machine
end

