-- ==== Sys2Proof/Laws/State.lean ====
section
/-!
SUPPORT. One lemma per field per named update of State, so that no proof unfolds a record update.
-/

namespace Sys2Proof.Machine

variable (s : State)

/-! ## accept -/

@[simp] theorem State.accept_cmd (c : Reg32) : (s.accept c).cmd = c := rfl
@[simp] theorem State.accept_busy (c : Reg32) : (s.accept c).busy = true := rfl
@[simp] theorem State.accept_done (c : Reg32) : (s.accept c).done = false := rfl
@[simp] theorem State.accept_ovf (c : Reg32) : (s.accept c).ovf = s.ovf := rfl
@[simp] theorem State.accept_ecode (c : Reg32) : (s.accept c).ecode = 0 := rfl
@[simp] theorem State.accept_ie (c : Reg32) : (s.accept c).ie = s.ie := rfl
@[simp] theorem State.accept_len (c : Reg32) : (s.accept c).len = s.len := rfl
@[simp] theorem State.accept_src (c : Reg32) : (s.accept c).src = s.src := rfl
@[simp] theorem State.accept_srcAvail (c : Reg32) : (s.accept c).srcAvail = s.srcAvail := rfl
@[simp] theorem State.accept_dst (c : Reg32) : (s.accept c).dst = s.dst := rfl
@[simp] theorem State.accept_res0 (c : Reg32) : (s.accept c).res0 = s.res0 := rfl
@[simp] theorem State.accept_res1 (c : Reg32) : (s.accept c).res1 = s.res1 := rfl
@[simp] theorem State.accept_mem (c : Reg32) : (s.accept c).mem = s.mem := rfl
@[simp] theorem State.accept_params (c : Reg32) : (s.accept c).params = s.params := rfl
@[simp] theorem State.accept_resetLine (c : Reg32) : (s.accept c).resetLine = s.resetLine := rfl
@[simp] theorem State.accept_moves (c : Reg32) : (s.accept c).moves = s.moves := rfl
@[simp] theorem State.accept_reply (c : Reg32) : (s.accept c).reply = s.reply := rfl
@[simp] theorem State.accept_raced (c : Reg32) : (s.accept c).raced = false := rfl
@[simp] theorem State.accept_draws (c : Reg32) : (s.accept c).draws = s.draws := rfl

/-! ## complete -/

@[simp] theorem State.complete_cmd (code : BitVec 4) : (s.complete code).cmd = s.cmd := rfl
@[simp] theorem State.complete_busy (code : BitVec 4) : (s.complete code).busy = false := rfl
@[simp] theorem State.complete_done (code : BitVec 4) : (s.complete code).done = true := rfl
@[simp] theorem State.complete_ovf (code : BitVec 4) : (s.complete code).ovf = s.ovf := rfl
@[simp] theorem State.complete_ecode (code : BitVec 4) : (s.complete code).ecode = code := rfl
@[simp] theorem State.complete_ie (code : BitVec 4) : (s.complete code).ie = s.ie := rfl
@[simp] theorem State.complete_len (code : BitVec 4) : (s.complete code).len = s.len := rfl
@[simp] theorem State.complete_src (code : BitVec 4) : (s.complete code).src = s.src := rfl
@[simp] theorem State.complete_srcAvail (code : BitVec 4) :
    (s.complete code).srcAvail = s.srcAvail := rfl
@[simp] theorem State.complete_dst (code : BitVec 4) : (s.complete code).dst = s.dst := rfl
@[simp] theorem State.complete_res0 (code : BitVec 4) : (s.complete code).res0 = s.res0 := rfl
@[simp] theorem State.complete_res1 (code : BitVec 4) : (s.complete code).res1 = s.res1 := rfl
@[simp] theorem State.complete_mem (code : BitVec 4) : (s.complete code).mem = s.mem := rfl
@[simp] theorem State.complete_params (code : BitVec 4) : (s.complete code).params = s.params := rfl
@[simp] theorem State.complete_resetLine (code : BitVec 4) :
    (s.complete code).resetLine = s.resetLine := rfl
@[simp] theorem State.complete_moves (code : BitVec 4) : (s.complete code).moves = s.moves := rfl
@[simp] theorem State.complete_reply (code : BitVec 4) : (s.complete code).reply = s.reply := rfl
@[simp] theorem State.complete_raced (code : BitVec 4) : (s.complete code).raced = false := rfl
@[simp] theorem State.complete_draws (code : BitVec 4) : (s.complete code).draws = s.draws := rfl

/-! ## raise -/

@[simp] theorem State.raise_cmd (e : ErrorCode) : (s.raise e).cmd = s.cmd := rfl
@[simp] theorem State.raise_busy (e : ErrorCode) : (s.raise e).busy = false := rfl
@[simp] theorem State.raise_done (e : ErrorCode) : (s.raise e).done = true := rfl
@[simp] theorem State.raise_ovf (e : ErrorCode) : (s.raise e).ovf = s.ovf := rfl
@[simp] theorem State.raise_ecode (e : ErrorCode) : (s.raise e).ecode = codeOf e := rfl
@[simp] theorem State.raise_ie (e : ErrorCode) : (s.raise e).ie = s.ie := rfl
@[simp] theorem State.raise_len (e : ErrorCode) : (s.raise e).len = s.len := rfl
@[simp] theorem State.raise_src (e : ErrorCode) : (s.raise e).src = s.src := rfl
@[simp] theorem State.raise_srcAvail (e : ErrorCode) : (s.raise e).srcAvail = s.srcAvail := rfl
@[simp] theorem State.raise_dst (e : ErrorCode) : (s.raise e).dst = s.dst := rfl
@[simp] theorem State.raise_res0 (e : ErrorCode) : (s.raise e).res0 = s.res0 := rfl
@[simp] theorem State.raise_res1 (e : ErrorCode) : (s.raise e).res1 = s.res1 := rfl
@[simp] theorem State.raise_mem (e : ErrorCode) : (s.raise e).mem = s.mem := rfl
@[simp] theorem State.raise_params (e : ErrorCode) : (s.raise e).params = s.params := rfl
@[simp] theorem State.raise_resetLine (e : ErrorCode) : (s.raise e).resetLine = s.resetLine := rfl
@[simp] theorem State.raise_moves (e : ErrorCode) : (s.raise e).moves = s.moves := rfl
@[simp] theorem State.raise_reply (e : ErrorCode) : (s.raise e).reply = s.reply := rfl
@[simp] theorem State.raise_raced (e : ErrorCode) : (s.raise e).raced = false := rfl
@[simp] theorem State.raise_draws (e : ErrorCode) : (s.raise e).draws = s.draws := rfl

/-! ## commit -/

@[simp] theorem State.commit_cmd (f : Effect) : (s.commit f).cmd = s.cmd := rfl
@[simp] theorem State.commit_busy (f : Effect) : (s.commit f).busy = s.busy := rfl
@[simp] theorem State.commit_done (f : Effect) : (s.commit f).done = s.done := rfl
@[simp] theorem State.commit_ovf (f : Effect) : (s.commit f).ovf = s.ovf := rfl
@[simp] theorem State.commit_ecode (f : Effect) : (s.commit f).ecode = s.ecode := rfl
@[simp] theorem State.commit_ie (f : Effect) : (s.commit f).ie = s.ie := rfl
@[simp] theorem State.commit_len (f : Effect) : (s.commit f).len = f.len.getD s.len := rfl
@[simp] theorem State.commit_src (f : Effect) : (s.commit f).src = s.src := rfl
@[simp] theorem State.commit_srcAvail (f : Effect) : (s.commit f).srcAvail = s.srcAvail := rfl
@[simp] theorem State.commit_dst (f : Effect) : (s.commit f).dst = s.dst := rfl
@[simp] theorem State.commit_res0 (f : Effect) :
    (s.commit f).res0 = (f.res.map Prod.fst).getD s.res0 := rfl
@[simp] theorem State.commit_res1 (f : Effect) :
    (s.commit f).res1 = (f.res.map Prod.snd).getD s.res1 := rfl
@[simp] theorem State.commit_mem (f : Effect) :
    (s.commit f).mem = Memory.writeBytes s.mem f.addr f.bytes := rfl
@[simp] theorem State.commit_params (f : Effect) : (s.commit f).params = s.params := rfl
@[simp] theorem State.commit_resetLine (f : Effect) : (s.commit f).resetLine = s.resetLine := rfl
@[simp] theorem State.commit_moves (f : Effect) : (s.commit f).moves = s.moves := rfl
@[simp] theorem State.commit_reply (f : Effect) : (s.commit f).reply = s.reply := rfl
@[simp] theorem State.commit_raced (f : Effect) : (s.commit f).raced = s.raced := rfl
@[simp] theorem State.commit_draws (f : Effect) : (s.commit f).draws = s.draws := rfl

/-! ## overflow -/

@[simp] theorem State.overflow_cmd : (s.overflow).cmd = s.cmd := rfl
@[simp] theorem State.overflow_busy : (s.overflow).busy = s.busy := rfl
@[simp] theorem State.overflow_done : (s.overflow).done = s.done := rfl
@[simp] theorem State.overflow_ovf : (s.overflow).ovf = true := rfl
@[simp] theorem State.overflow_ecode : (s.overflow).ecode = s.ecode := rfl
@[simp] theorem State.overflow_ie : (s.overflow).ie = s.ie := rfl
@[simp] theorem State.overflow_len : (s.overflow).len = s.len := rfl
@[simp] theorem State.overflow_src : (s.overflow).src = s.src := rfl
@[simp] theorem State.overflow_srcAvail : (s.overflow).srcAvail = s.srcAvail := rfl
@[simp] theorem State.overflow_dst : (s.overflow).dst = s.dst := rfl
@[simp] theorem State.overflow_res0 : (s.overflow).res0 = s.res0 := rfl
@[simp] theorem State.overflow_res1 : (s.overflow).res1 = s.res1 := rfl
@[simp] theorem State.overflow_mem : (s.overflow).mem = s.mem := rfl
@[simp] theorem State.overflow_params : (s.overflow).params = s.params := rfl
@[simp] theorem State.overflow_resetLine : (s.overflow).resetLine = s.resetLine := rfl
@[simp] theorem State.overflow_moves : (s.overflow).moves = s.moves := rfl
@[simp] theorem State.overflow_reply : (s.overflow).reply = s.reply := rfl
@[simp] theorem State.overflow_raced : (s.overflow).raced = s.raced := rfl
@[simp] theorem State.overflow_draws : (s.overflow).draws = s.draws := rfl

/-! ## clearStatus -/

@[simp] theorem State.clearStatus_cmd (v : Reg32) : (s.clearStatus v).cmd = s.cmd := rfl
@[simp] theorem State.clearStatus_busy (v : Reg32) : (s.clearStatus v).busy = s.busy := rfl
@[simp] theorem State.clearStatus_done (v : Reg32) :
    (s.clearStatus v).done = (s.done && !v.getLsbD 1) := rfl
@[simp] theorem State.clearStatus_ovf (v : Reg32) :
    (s.clearStatus v).ovf = (s.ovf && !v.getLsbD 3) := rfl
@[simp] theorem State.clearStatus_ecode (v : Reg32) : (s.clearStatus v).ecode = s.ecode := rfl
@[simp] theorem State.clearStatus_ie (v : Reg32) : (s.clearStatus v).ie = s.ie := rfl
@[simp] theorem State.clearStatus_len (v : Reg32) : (s.clearStatus v).len = s.len := rfl
@[simp] theorem State.clearStatus_src (v : Reg32) : (s.clearStatus v).src = s.src := rfl
@[simp] theorem State.clearStatus_srcAvail (v : Reg32) :
    (s.clearStatus v).srcAvail = s.srcAvail := rfl
@[simp] theorem State.clearStatus_dst (v : Reg32) : (s.clearStatus v).dst = s.dst := rfl
@[simp] theorem State.clearStatus_res0 (v : Reg32) : (s.clearStatus v).res0 = s.res0 := rfl
@[simp] theorem State.clearStatus_res1 (v : Reg32) : (s.clearStatus v).res1 = s.res1 := rfl
@[simp] theorem State.clearStatus_mem (v : Reg32) : (s.clearStatus v).mem = s.mem := rfl
@[simp] theorem State.clearStatus_params (v : Reg32) : (s.clearStatus v).params = s.params := rfl
@[simp] theorem State.clearStatus_resetLine (v : Reg32) :
    (s.clearStatus v).resetLine = s.resetLine := rfl
@[simp] theorem State.clearStatus_moves (v : Reg32) : (s.clearStatus v).moves = s.moves := rfl
@[simp] theorem State.clearStatus_reply (v : Reg32) : (s.clearStatus v).reply = s.reply := rfl
@[simp] theorem State.clearStatus_raced (v : Reg32) : (s.clearStatus v).raced = s.raced := rfl
@[simp] theorem State.clearStatus_draws (v : Reg32) : (s.clearStatus v).draws = s.draws := rfl

/-! ## writeCtrl -/

@[simp] theorem State.writeCtrl_cmd (v : Reg32) : (s.writeCtrl v).cmd = s.cmd := rfl
@[simp] theorem State.writeCtrl_busy (v : Reg32) : (s.writeCtrl v).busy = s.busy := rfl
@[simp] theorem State.writeCtrl_done (v : Reg32) : (s.writeCtrl v).done = s.done := rfl
@[simp] theorem State.writeCtrl_ovf (v : Reg32) : (s.writeCtrl v).ovf = s.ovf := rfl
@[simp] theorem State.writeCtrl_ecode (v : Reg32) : (s.writeCtrl v).ecode = s.ecode := rfl
@[simp] theorem State.writeCtrl_ie (v : Reg32) : (s.writeCtrl v).ie = v.getLsbD 0 := rfl
@[simp] theorem State.writeCtrl_len (v : Reg32) : (s.writeCtrl v).len = s.len := rfl
@[simp] theorem State.writeCtrl_src (v : Reg32) : (s.writeCtrl v).src = s.src := rfl
@[simp] theorem State.writeCtrl_srcAvail (v : Reg32) : (s.writeCtrl v).srcAvail = s.srcAvail := rfl
@[simp] theorem State.writeCtrl_dst (v : Reg32) : (s.writeCtrl v).dst = s.dst := rfl
@[simp] theorem State.writeCtrl_res0 (v : Reg32) : (s.writeCtrl v).res0 = s.res0 := rfl
@[simp] theorem State.writeCtrl_res1 (v : Reg32) : (s.writeCtrl v).res1 = s.res1 := rfl
@[simp] theorem State.writeCtrl_mem (v : Reg32) : (s.writeCtrl v).mem = s.mem := rfl
@[simp] theorem State.writeCtrl_params (v : Reg32) : (s.writeCtrl v).params = s.params := rfl
@[simp] theorem State.writeCtrl_resetLine (v : Reg32) :
    (s.writeCtrl v).resetLine = s.resetLine := rfl
@[simp] theorem State.writeCtrl_moves (v : Reg32) : (s.writeCtrl v).moves = s.moves := rfl
@[simp] theorem State.writeCtrl_reply (v : Reg32) : (s.writeCtrl v).reply = s.reply := rfl
@[simp] theorem State.writeCtrl_raced (v : Reg32) : (s.writeCtrl v).raced = s.raced := rfl
@[simp] theorem State.writeCtrl_draws (v : Reg32) : (s.writeCtrl v).draws = s.draws := rfl

/-! ## clearRegisters -/

@[simp] theorem State.clearRegisters_cmd : (s.clearRegisters).cmd = 0 := rfl
@[simp] theorem State.clearRegisters_busy : (s.clearRegisters).busy = false := rfl
@[simp] theorem State.clearRegisters_done : (s.clearRegisters).done = false := rfl
@[simp] theorem State.clearRegisters_ovf : (s.clearRegisters).ovf = false := rfl
@[simp] theorem State.clearRegisters_ecode : (s.clearRegisters).ecode = 0 := rfl
@[simp] theorem State.clearRegisters_ie : (s.clearRegisters).ie = false := rfl
@[simp] theorem State.clearRegisters_len : (s.clearRegisters).len = 0 := rfl
@[simp] theorem State.clearRegisters_src : (s.clearRegisters).src = 0 := rfl
@[simp] theorem State.clearRegisters_srcAvail : (s.clearRegisters).srcAvail = 0 := rfl
@[simp] theorem State.clearRegisters_dst : (s.clearRegisters).dst = 0 := rfl
@[simp] theorem State.clearRegisters_res0 : (s.clearRegisters).res0 = 0 := rfl
@[simp] theorem State.clearRegisters_res1 : (s.clearRegisters).res1 = 0 := rfl
@[simp] theorem State.clearRegisters_mem : (s.clearRegisters).mem = s.mem := rfl
@[simp] theorem State.clearRegisters_params : (s.clearRegisters).params = s.params := rfl
@[simp] theorem State.clearRegisters_resetLine : (s.clearRegisters).resetLine = true := rfl
@[simp] theorem State.clearRegisters_moves : (s.clearRegisters).moves = s.moves := rfl
@[simp] theorem State.clearRegisters_reply : (s.clearRegisters).reply = s.reply := rfl
@[simp] theorem State.clearRegisters_raced : (s.clearRegisters).raced = false := rfl
@[simp] theorem State.clearRegisters_draws : (s.clearRegisters).draws = s.draws := rfl

/-! ## launch -/

@[simp] theorem State.launch_cmd (c : Reg32) : (s.launch c).cmd = c := rfl
@[simp] theorem State.launch_busy (c : Reg32) : (s.launch c).busy = true := rfl
@[simp] theorem State.launch_done (c : Reg32) : (s.launch c).done = false := rfl
@[simp] theorem State.launch_ovf (c : Reg32) : (s.launch c).ovf = s.ovf := rfl
@[simp] theorem State.launch_ecode (c : Reg32) : (s.launch c).ecode = 0 := rfl
@[simp] theorem State.launch_ie (c : Reg32) : (s.launch c).ie = s.ie := rfl
@[simp] theorem State.launch_len (c : Reg32) : (s.launch c).len = s.len := rfl
@[simp] theorem State.launch_src (c : Reg32) : (s.launch c).src = s.src := rfl
@[simp] theorem State.launch_srcAvail (c : Reg32) : (s.launch c).srcAvail = s.srcAvail := rfl
@[simp] theorem State.launch_dst (c : Reg32) : (s.launch c).dst = s.dst := rfl
@[simp] theorem State.launch_res0 (c : Reg32) : (s.launch c).res0 = s.res0 := rfl
@[simp] theorem State.launch_res1 (c : Reg32) : (s.launch c).res1 = s.res1 := rfl
@[simp] theorem State.launch_mem (c : Reg32) : (s.launch c).mem = s.mem := rfl
@[simp] theorem State.launch_params (c : Reg32) : (s.launch c).params = s.params := rfl
@[simp] theorem State.launch_resetLine (c : Reg32) : (s.launch c).resetLine = false := rfl
@[simp] theorem State.launch_moves (c : Reg32) : (s.launch c).moves = Move.engine :: s.moves := rfl
@[simp] theorem State.launch_reply (c : Reg32) : (s.launch c).reply = s.reply := rfl
@[simp] theorem State.launch_raced (c : Reg32) : (s.launch c).raced = false := rfl
@[simp] theorem State.launch_draws (c : Reg32) : (s.launch c).draws = s.draws := rfl

end Sys2Proof.Machine
end

