-- ==== Sys2Proof/Laws/Commands.lean ====
section
/-!
SUPPORT. What a command can do, said once: `exec` finishes with the command's plan; a plan that
succeeds writes inside MEM; and how `finish` ends.
-/

namespace Sys2Proof.Machine

variable (i : Instr) (s : State)

/-- Every meaning is its plan, finished. -/
theorem exec_eq_finish : exec i s = .next (s.finish (plan i s)) := by
  cases i <;> rfl

@[simp] theorem finish_error (e : ErrorCode) : s.finish (.error e) = s.complete (codeOf e) := rfl

@[simp] theorem finish_ok (f : Effect) : s.finish (.ok f) = (s.commit f).complete 0 := rfl

/-- How a command ends: with an error and nothing but STATUS written, or with its effect and code 0. -/
theorem finish_cases (r : Except ErrorCode Effect) :
    (∃ e, r = .error e ∧ s.finish r = s.complete (codeOf e)) ∨
      ∃ f, r = .ok f ∧ s.finish r = (s.commit f).complete 0 := by
  cases r with
  | error e => exact .inl ⟨e, rfl, rfl⟩
  | ok f => exact .inr ⟨f, rfl, rfl⟩

theorem codeOf_ne_zero (e : ErrorCode) : codeOf e ≠ 0 := by cases e <;> decide

theorem codeOf_le_seven (e : ErrorCode) : (codeOf e).toNat ≤ 7 := by cases e <;> decide

/-! ## What a successful plan says -/

theorem planLenc_ok {s : State} {f : Effect} (h : planLenc s = .ok f) :
    s.inRange s.dst.toNat (lenEncode s.len.toNat).length ∧
      f = ⟨s.dst.toNat, lenEncode s.len.toNat, none,
        some (resWord (lenEncode s.len.toNat).length, 0)⟩ := by
  simp only [planLenc] at h
  split at h
  · cases h
  · exact ⟨not_not.1 ‹_›, by cases h; rfl⟩

theorem planLdec_ok {s : State} {f : Effect} (h : planLdec s = .ok f) :
    ∃ n p, lenDecode (Memory.readBytes s.mem s.src.toNat (min s.srcAvail.toNat maxPrefixBytes))
        = .ok (n, p) ∧
      s.inRange s.src.toNat s.srcAvail.toNat ∧
      f = ⟨0, [], some (resWord n), some (resWord p, 0)⟩ := by
  simp only [planLdec] at h
  split at h
  · cases h
  · split at h
    · cases h
    · exact ⟨_, _, ‹_›, not_not.1 ‹_›, by cases h; rfl⟩

theorem planPack_ok {w : WordWidth} {fmt : MemFormat} {s : State} {f : Effect}
    (h : planPack w fmt s = .ok f) :
    s.inRange s.src.toNat (formatSize fmt s.len.toNat w) ∧
      s.inRange s.dst.toNat (requiredBytes s.len.toNat w) ∧
      ¬ overlap s.src.toNat (formatSize fmt s.len.toNat w) s.dst.toNat
        (requiredBytes s.len.toNat w) ∧
      f = ⟨s.dst.toNat,
        packBody (inBits fmt
          (Memory.readBytes s.mem s.src.toNat (formatSize fmt s.len.toNat w)) w) s.len.toNat w,
        none, some (resWord (requiredBytes s.len.toNat w), 0)⟩ := by
  simp only [planPack] at h
  split at h
  · cases h
  · split at h
    · cases h
    · split at h
      · cases h
      · exact ⟨not_not.1 ‹_›, not_not.1 ‹_›, ‹_›, by cases h; rfl⟩

theorem planUnpack_ok {w : WordWidth} {strict : Bool} {fmt : MemFormat} {s : State} {f : Effect}
    (h : planUnpack w strict fmt s = .ok f) :
    s.inRange s.src.toNat s.srcAvail.toNat ∧
      requiredBytes s.len.toNat w ≤ s.srcAvail.toNat ∧
      (strict && paddingNonZero
        (Memory.readBytes s.mem s.src.toNat (requiredBytes s.len.toNat w)) s.len.toNat w) = false ∧
      s.inRange s.dst.toNat (formatSize fmt s.len.toNat w) ∧
      ¬ overlap s.src.toNat (requiredBytes s.len.toNat w) s.dst.toNat
        (formatSize fmt s.len.toNat w) ∧
      f = ⟨s.dst.toNat,
        outBytes fmt (Memory.readBytes s.mem s.src.toNat (requiredBytes s.len.toNat w))
          s.len.toNat w,
        none,
        some (resWord (requiredBytes s.len.toNat w), resWord (formatSize fmt s.len.toNat w))⟩ := by
  simp only [planUnpack] at h
  split at h
  · cases h
  · split at h
    · cases h
    · split at h
      · cases h
      · split at h
        · cases h
        · split at h
          · cases h
          · exact ⟨not_not.1 ‹_›, not_lt.1 ‹_›, Bool.eq_false_iff.2 ‹_›, not_not.1 ‹_›, ‹_›,
              by cases h; rfl⟩

theorem planEncode_ok {w : WordWidth} {fmt : MemFormat} {s : State} {f : Effect}
    (h : planEncode w fmt s = .ok f) :
    s.inRange s.src.toNat (formatSize fmt s.len.toNat w) ∧
      s.inRange s.dst.toNat ((lenEncode s.len.toNat).length + requiredBytes s.len.toNat w) ∧
      ¬ overlap s.src.toNat (formatSize fmt s.len.toNat w) s.dst.toNat
        ((lenEncode s.len.toNat).length + requiredBytes s.len.toNat w) ∧
      f = ⟨s.dst.toNat,
        encodingOf (inBits fmt
          (Memory.readBytes s.mem s.src.toNat (formatSize fmt s.len.toNat w)) w) s.len.toNat w,
        none,
        some (resWord ((lenEncode s.len.toNat).length + requiredBytes s.len.toNat w),
          resWord (lenEncode s.len.toNat).length)⟩ := by
  simp only [planEncode] at h
  split at h
  · cases h
  · split at h
    · cases h
    · split at h
      · cases h
      · exact ⟨not_not.1 ‹_›, not_not.1 ‹_›, ‹_›, by cases h; rfl⟩

/-- A decode that succeeds, taken apart. -/
theorem decodeFrom_ok {addrW avail : Nat} {bytes : Nat → Nat → List Byte} {w : WordWidth}
    {strict : Bool} {d : Decoded} (h : decodeFrom addrW avail bytes w strict = .ok d) :
    lenDecode (bytes 0 (min avail maxPrefixBytes)) = .ok (d.n, d.p) ∧
      requiredBytes d.n w ≤ 2 ^ addrW ∧
      requiredBytes d.n w ≤ avail - d.p ∧
      (strict && paddingNonZero (bytes d.p (requiredBytes d.n w)) d.n w) = false ∧
      d.body = bytes d.p (requiredBytes d.n w) := by
  simp only [decodeFrom] at h
  split at h
  · cases h
  · split at h
    · cases h
    · split at h
      · cases h
      · split at h
        · cases h
        · cases h
          exact ⟨‹_›, not_lt.1 ‹_›, not_lt.1 ‹_›, Bool.eq_false_iff.2 ‹_›, rfl⟩

theorem planDecode_ok {w : WordWidth} {strict : Bool} {fmt : MemFormat} {s : State} {f : Effect}
    (h : planDecode w strict fmt s = .ok f) :
    ∃ d, decodeFrom s.params.addrW s.srcAvail.toNat
        (fun off k => Memory.readBytes s.mem (s.src.toNat + off) k) w strict = .ok d ∧
      s.inRange s.src.toNat s.srcAvail.toNat ∧
      s.inRange s.dst.toNat (formatSize fmt d.n w) ∧
      ¬ overlap s.src.toNat (d.p + requiredBytes d.n w) s.dst.toNat (formatSize fmt d.n w) ∧
      f = ⟨s.dst.toNat, outBytes fmt d.body d.n w, some (resWord d.n),
        some (resWord (d.p + requiredBytes d.n w), resWord d.p)⟩ := by
  simp only [planDecode] at h
  split at h
  · cases h
  · split at h
    · cases h
    · split at h
      · cases h
      · split at h
        · cases h
        · exact ⟨_, ‹_›, not_not.1 ‹_›, not_not.1 ‹_›, ‹_›, by cases h; rfl⟩

/-- A command that succeeds writes inside MEM. -/
theorem plan_ok_within {f : Effect} (h : plan i s = .ok f) :
    f.bytes = [] ∨ f.addr + f.bytes.length ≤ s.memSize := by
  cases i with
  | nop => cases h; exact .inl rfl
  | lenc => obtain ⟨hr, rfl⟩ := planLenc_ok h; exact .inr hr
  | ldec => obtain ⟨_, _, _, _, rfl⟩ := planLdec_ok h; exact .inl rfl
  | rbytes w => cases h; exact .inl rfl
  | pack w fmt => obtain ⟨_, hr, _, rfl⟩ := planPack_ok h; exact .inr (by simpa using hr)
  | unpack w strict fmt =>
    obtain ⟨_, _, _, hr, _, rfl⟩ := planUnpack_ok h; exact .inr (by simpa using hr)
  | encode w fmt => obtain ⟨_, hr, _, rfl⟩ := planEncode_ok h; exact .inr (by simpa using hr)
  | decode w strict fmt =>
    obtain ⟨d, _, _, hr, _, rfl⟩ := planDecode_ok h; exact .inr (by simpa using hr)

end Sys2Proof.Machine
end

