-- ==== Sys2Proof/Laws/PerInstr.lean ====
section
/-!
SUPPORT. The statements made per command, one lemma per constructor. `WordLegal`: the word a command
encodes to agrees with its row of the opcode table and is legal by `30_encoding.md` R95.
-/

namespace Sys2Proof.Laws

/-- The word of the command has its OP, matches its row under the row's mask (`30_encoding.md` R97),
and meets none of the four conditions of R95. -/
def WordLegal.Statement (i : Instr) : Prop :=
  opOf (encode i) = opNumber i ∧
    (maskOf (opNumber i)).map (encode i &&& ·) = some (matchOf (opNumber i)) ∧
    (CmdFields.ofWord (encode i)).WellFormed = true

theorem WordLegal.nop : WordLegal.Statement .nop := by
  unfold WordLegal.Statement; decide

theorem WordLegal.lenc : WordLegal.Statement .lenc := by
  unfold WordLegal.Statement; decide

theorem WordLegal.ldec : WordLegal.Statement .ldec := by
  unfold WordLegal.Statement; decide

theorem WordLegal.rbytes (w : WordWidth) : WordLegal.Statement (.rbytes w) := by
  unfold WordLegal.Statement; cases w <;> decide

theorem WordLegal.pack (w : WordWidth) (fmt : MemFormat) : WordLegal.Statement (.pack w fmt) := by
  unfold WordLegal.Statement; cases w <;> cases fmt <;> decide

theorem WordLegal.unpack (w : WordWidth) (strict : Bool) (fmt : MemFormat) :
    WordLegal.Statement (.unpack w strict fmt) := by
  unfold WordLegal.Statement; cases w <;> cases strict <;> cases fmt <;> decide

theorem WordLegal.encode (w : WordWidth) (fmt : MemFormat) :
    WordLegal.Statement (.encode w fmt) := by
  unfold WordLegal.Statement; cases w <;> cases fmt <;> decide

theorem WordLegal.decode (w : WordWidth) (strict : Bool) (fmt : MemFormat) :
    WordLegal.Statement (.decode w strict fmt) := by
  unfold WordLegal.Statement; cases w <;> cases strict <;> cases fmt <;> decide

end Sys2Proof.Laws
end

