-- ==== Sys2Proof/Laws/Step.lean ====
section
/-!
SUPPORT. Everything one step can do, said once: one inversion lemma for the step, one for the engine
and one for each move of the host and the reset input.
-/

namespace Sys2Proof.Machine

variable {s t : State}

/-- A step is the engine's turn or the oldest move to come. -/
theorem step_next_cases (h : step s = .next t) :
    (s.moves = [] ∧ engineStep s = .next t) ∨
      ∃ m ms, s.moves = m :: ms ∧ runMove m { s with moves := ms } = .next t := by
  unfold step nextMove at h
  split at h
  · exact .inl ⟨‹_›, h⟩
  · exact .inr ⟨_, _, ‹_›, h⟩

theorem running_eq_some {i : Instr} :
    s.running = some i ↔ s.busy = true ∧ decode s.cmd = .ok i := by
  unfold State.running
  split <;> rename_i hb
  · cases hd : decode s.cmd <;> simp [hb, Except.toOption]
  · simp [hb]

/-- What the engine's step can do. -/
theorem engineStep_next_cases (h : engineStep s = .next t) :
    ((s.busy = false ∨ s.resetLine = true) ∧ t = s) ∨
      (s.busy = true ∧ s.resetLine = false ∧
        (((∃ e, decode s.cmd = .error e) ∧ t = s.complete 5) ∨
          ∃ i, decode s.cmd = .ok i ∧ touchesNonRam i s = false ∧
            ((s.raced = true ∧ t = racedCompletion i s) ∨
              (s.raced = false ∧ t = s.finish (plan i s))))) := by
  unfold engineStep at h
  split at h
  · rename_i hb
    simp only [Bool.and_eq_true, Bool.not_eq_true'] at hb
    refine .inr ⟨hb.1, hb.2, ?_⟩
    split at h
    · cases h
      exact .inl ⟨⟨_, ‹_›⟩, rfl⟩
    · refine .inr ⟨_, ‹_›, ?_⟩
      unfold runCommand at h
      split at h
      · cases h
      · refine ⟨Bool.eq_false_iff.2 ‹_›, ?_⟩
        split at h
        · cases h
          exact .inl ⟨‹_›, rfl⟩
        · rw [exec_eq_finish] at h
          cases h
          exact .inr ⟨Bool.eq_false_iff.2 ‹_›, rfl⟩
  · rename_i hb
    cases h
    refine .inl ⟨?_, rfl⟩
    cases hbusy : s.busy <;> cases hr : s.resetLine <;> simp_all

/-- A running command that touches nothing but plain memory completes. -/
theorem engineStep_running {i : Instr} (hr : s.running = some i) (hl : s.resetLine = false)
    (hn : touchesNonRam i s = false) :
    engineStep s = .next (if s.raced then racedCompletion i s else s.finish (plan i s)) := by
  obtain ⟨hb, hd⟩ := running_eq_some.1 hr
  simp only [engineStep, hb, hl, hd, runCommand, hn, exec_eq_finish]
  cases s.raced <;> rfl

/-! ## The host's moves -/

theorem hostRegRead_next {addr size : Nat} (h : hostRegRead addr size s = .next t) :
    s.legalAccess addr size ∧
      t = { s with reply := .reg (s.readReg (regAt (addr - s.params.base))) } := by
  unfold hostRegRead at h
  split at h <;> cases h
  exact ⟨‹_›, rfl⟩

theorem hostRegWrite_next {addr size : Nat} {v : Reg32} (h : hostRegWrite addr size v s = .next t) :
    s.legalAccess addr size ∧
      ((s.resetLine = true ∧ t = s) ∨
        (s.resetLine = false ∧ t = s.writeReg (regAt (addr - s.params.base)) v)) := by
  unfold hostRegWrite at h
  split at h <;> cases h
  refine ⟨‹_›, ?_⟩
  cases s.resetLine <;> simp

/-- What a register write can do. -/
theorem writeReg_cases (r : Reg) (v : Reg32) :
    (s.busy = true ∧ s.writeReg r v = s.overflow) ∨
      (s.busy = false ∧ s.writeReg r v = s.accept v) ∨
      s.writeReg r v = s.clearStatus v ∨
      s.writeReg r v = s.writeCtrl v ∨
      (s.busy = false ∧ ∃ a b c d,
        s.writeReg r v = { s with len := a, src := b, srcAvail := c, dst := d }) ∨
      s.writeReg r v = s := by
  by_cases hb : s.busy = true
  · cases r
    case status => exact .inr (.inr (.inl rfl))
    case ctrl => exact .inr (.inr (.inr (.inl rfl)))
    case res0 | res1 | reserved => exact .inr (.inr (.inr (.inr (.inr rfl))))
    all_goals exact .inl ⟨hb, if_pos hb⟩
  · have hf : s.busy = false := Bool.eq_false_iff.2 hb
    cases r
    case cmd => exact .inr (.inl ⟨hf, if_neg hb⟩)
    case status => exact .inr (.inr (.inl rfl))
    case ctrl => exact .inr (.inr (.inr (.inl rfl)))
    case res0 | res1 | reserved => exact .inr (.inr (.inr (.inr (.inr rfl))))
    all_goals exact .inr (.inr (.inr (.inr (.inl ⟨hf, _, _, _, _, if_neg hb⟩))))

theorem hostMemRead_next {a : Nat} (h : hostMemRead a s = .next t) :
    a < s.memSize ∧ isNonRam s a = false ∧
      ((∃ i, s.running = some i ∧ inside (outputRegion i s) a ∧
          t = { s with reply := .byte (drawnByte i s a), raced := true, draws := s.draws + 1 }) ∨
        ((∀ i, s.running = some i → ¬ inside (outputRegion i s) a) ∧
          t = { s with reply := .byte (Memory.read s.mem a) })) := by
  unfold hostMemRead at h
  split at h
  · cases h
  · split at h
    · cases h
    · refine ⟨not_le.1 ‹_›, Bool.eq_false_iff.2 ‹_›, ?_⟩
      split at h
      · rename_i i hi
        split at h <;> cases h
        · exact .inl ⟨i, hi, ‹_›, rfl⟩
        · exact .inr ⟨fun j hj => by rw [hi] at hj; cases hj; assumption, rfl⟩
      · rename_i hi
        cases h
        exact .inr ⟨fun j hj => by simp [hi] at hj, rfl⟩

theorem hostMemWrite_next {a : Nat} {b : Byte} (h : hostMemWrite a b s = .next t) :
    a < s.memSize ∧ isNonRam s a = false ∧
      ((∃ i, s.running = some i ∧ (inside (inputRegion i s) a ∨ inside (outputRegion i s) a) ∧
          t = { s with mem := Memory.write s.mem a b, raced := true }) ∨
        ((∀ i, s.running = some i →
            ¬ inside (inputRegion i s) a ∧ ¬ inside (outputRegion i s) a) ∧
          t = { s with mem := Memory.write s.mem a b })) := by
  unfold hostMemWrite at h
  split at h
  · cases h
  · split at h
    · cases h
    · refine ⟨not_le.1 ‹_›, Bool.eq_false_iff.2 ‹_›, ?_⟩
      split at h
      · rename_i i hi
        split at h <;> cases h
        · exact .inl ⟨i, hi, ‹_›, rfl⟩
        · exact .inr ⟨fun j hj => by rw [hi] at hj; cases hj; exact not_or.1 ‹_›, rfl⟩
      · rename_i hi
        cases h
        exact .inr ⟨fun j hj => by simp [hi] at hj, rfl⟩

/-! ## Reset -/

theorem assertReset_next (h : assertReset s = .next t) :
    (s.running = none ∧ t = s.clearRegisters) ∨
      ∃ i, s.running = some i ∧ touchesNonRam i s = false ∧
        t = { s.clearRegisters with
              mem := abandonedMemory i s
              draws := s.draws + (abandonedOutput i s).2.length } := by
  unfold assertReset at h
  split at h
  · cases h
    exact .inl ⟨‹_›, rfl⟩
  · split at h <;> cases h
    exact .inr ⟨_, ‹_›, Bool.eq_false_iff.2 ‹_›, rfl⟩

@[simp] theorem mixBytes_length (m : Memory) (k a : Nat) (v : List Byte) :
    (mixBytes m k a v).length = v.length := by
  induction v generalizing k a with
  | nil => rfl
  | cons b v ih => simp [mixBytes, ih]

@[simp] theorem drawBytes_length (k n : Nat) : (drawBytes k n).length = n := by simp [drawBytes]

/-- A clipped region lies in MEM, or is empty. -/
theorem clip_within (r : Region) : (clip s r).2 = 0 ∨ (clip s r).1 + (clip s r).2 ≤ s.memSize := by
  simp only [clip]
  omega

end Sys2Proof.Machine
end

