-- ==== Sys2Proof/Machine/Assembler.lean ====
section
/-!
DEFINITION. The assembler of `30_encoding.md` R99, from the parts of a written command word
`mnemonic[.wN][.strict or .lenient][.store or .lane]` to the command, and the spelling of a command.
The order of the qualifiers, each at most once, is the order of R99's form (log entry 25).
-/

namespace Sys2Proof.Machine

/-- The mnemonics of `30_encoding.md` R97. -/
inductive Mnemonic where
  | nop
  | lenc
  | ldec
  | rbytes
  | pack
  | unpack
  | encode
  | decode
  deriving DecidableEq, Repr

/-- A written command word: the mnemonic and, where present, `.wN`, `.strict` (true) or `.lenient`
(false), `.store` or `.lane`. -/
structure AsmWord where
  mnemonic : Mnemonic
  width : Option WordWidth := none
  strictness : Option Bool := none
  format : Option MemFormat := none
  deriving DecidableEq, Repr

/-- The command a written word means. An absent `.wN` is `.w8`, an absent `.strict` lenient, an absent
`.store` LANE; a qualifier the command does not take is a syntax error (`30_encoding.md` R99). -/
def assemble (a : AsmWord) : Option Instr :=
  let w := a.width.getD .w8
  let strict := a.strictness.getD false
  let fmt := a.format.getD .lane
  match a.mnemonic with
  | .nop => if a.width = none ∧ a.strictness = none ∧ a.format = none then some .nop else none
  | .lenc => if a.width = none ∧ a.strictness = none ∧ a.format = none then some .lenc else none
  | .ldec => if a.width = none ∧ a.strictness = none ∧ a.format = none then some .ldec else none
  | .rbytes => if a.strictness = none ∧ a.format = none then some (.rbytes w) else none
  | .pack => if a.strictness = none then some (.pack w fmt) else none
  | .unpack => some (.unpack w strict fmt)
  | .encode => if a.strictness = none then some (.encode w fmt) else none
  | .decode => some (.decode w strict fmt)

/-- `.wN` as R99 writes it; `.w8` is left out. -/
def spellWidth : WordWidth → String
  | .w8 => ""
  | .w16 => ".w16"
  | .w32 => ".w32"
  | .w64 => ".w64"

/-- `.store` as R99 writes it; LANE is left out. -/
def spellFormat : MemFormat → String
  | .lane => ""
  | .store => ".store"

/-- `.strict` as R99 writes it; lenient is left out. -/
def spellStrict (strict : Bool) : String := if strict then ".strict" else ""

/-- The text of a command (`30_encoding.md` R99). -/
def spell : Instr → String
  | .nop => "nop"
  | .lenc => "lenc"
  | .ldec => "ldec"
  | .rbytes w => "rbytes" ++ spellWidth w
  | .pack w fmt => "pack" ++ spellWidth w ++ spellFormat fmt
  | .unpack w strict fmt => "unpack" ++ spellWidth w ++ spellStrict strict ++ spellFormat fmt
  | .encode w fmt => "encode" ++ spellWidth w ++ spellFormat fmt
  | .decode w strict fmt => "decode" ++ spellWidth w ++ spellStrict strict ++ spellFormat fmt

end Sys2Proof.Machine
end

