-- ==== Sys2Proof/Tests/Slice0.lean ====
section
/-!
SUPPORT. Tests: ill-formed words that WellFormed refuses, words written out from the spec's encoding of
them, steps of `95_test_vectors.md`, and for each obligation with hypotheses a witness that meets them.
-/

namespace Sys2Proof.Tests

open Sys2Proof Sys2Proof.Machine

/-! ## WellFormed refuses an ill-formed word of each kind (`30_encoding.md` R95) -/

theorem test_wellFormed_refuses_reserved_op :
    (CmdFields.ofWord 0x00000008).opKnown = false ∧
      (CmdFields.ofWord 0x00000008).WellFormed = false := by decide

theorem test_wellFormed_refuses_order :
    (CmdFields.ofWord 0x00000106).orderLegal = false ∧
      (CmdFields.ofWord 0x00000106).WellFormed = false := by decide

theorem test_wellFormed_refuses_reserved_bits :
    (CmdFields.ofWord 0x80000007).reservedClear = false ∧
      (CmdFields.ofWord 0x80000007).WellFormed = false := by decide

/-- WSEL in LENC, STRICT in LDEC, FMT in RBYTES, STRICT in ENCODE. -/
theorem test_wellFormed_refuses_unused_fields :
    (CmdFields.ofWord 0x00000011).unusedClear = false ∧
      (CmdFields.ofWord 0x00000042).unusedClear = false ∧
      (CmdFields.ofWord 0x00000083).unusedClear = false ∧
      (CmdFields.ofWord 0x00000046).WellFormed = false := by decide

theorem test_wellFormed_admits_a_legal_word : (CmdFields.ofWord 0x000000D7).WellFormed = true := by
  decide

/-! ## Words written out bit by bit, as `ORDER FMT STRICT WSEL OP` (`30_encoding.md` R81, R97) -/

theorem test_decode_nop : decode 0b0_0_0_00_0000 = .ok .nop := by decide

theorem test_decode_lenc : decode 0b0_0_0_00_0001 = .ok .lenc := by decide

theorem test_decode_ldec : decode 0b0_0_0_00_0010 = .ok .ldec := by decide

theorem test_decode_rbytes : decode 0b0_0_0_11_0011 = .ok (.rbytes .w64) := by decide

theorem test_decode_pack : decode 0b0_1_0_01_0100 = .ok (.pack .w16 .store) := by decide

theorem test_decode_unpack : decode 0b0_1_1_10_0101 = .ok (.unpack .w32 true .store) := by decide

theorem test_decode_encode : decode 0b0_1_0_01_0110 = .ok (.encode .w16 .store) := by decide

theorem test_decode_decode : decode 0b0_0_1_01_0111 = .ok (.decode .w16 true .lane) := by decide

theorem test_decode_rejects_by_name :
    decode 0x0000000F = .error .reservedOp ∧ decode 0x00000107 = .error .orderSet ∧
      decode 0x80000007 = .error .reservedBits ∧ decode 0x00000044 = .error .unusedField := by
  decide

/-- The examples of `30_encoding.md` R99. -/
theorem test_assembler_examples :
    (assemble ⟨.encode, some .w16, none, some .store⟩).map Sys2Proof.encode = some 0x00000096 ∧
      (assemble ⟨.decode, some .w16, some true, none⟩).map Sys2Proof.encode = some 0x00000057 ∧
      (assemble ⟨.rbytes, some .w64, none, none⟩).map Sys2Proof.encode = some 0x00000033 ∧
      assemble ⟨.lenc, some .w16, none, none⟩ = none := by
  decide

theorem test_spelling : spell (.unpack .w32 true .store) = "unpack.w32.strict.store" := by decide

/-- `wr LEN, 5` on a window at 0x4000 (`30_encoding.md` R100, `10_state.md` R20). -/
theorem test_host_write_notation :
    hostWr ⟨32, 0x4000, []⟩ .len 5 = .regWrite 0x400C 4 5 := by decide

/-! ## One step of each command, from the vectors of `95_test_vectors.md` -/

/-- The reset state with the operand registers set and bytes placed in MEM. -/
def start (len src srcAvail dst : Reg32) (a : Nat) (bytes : List Byte) : State :=
  { State.reset with
    len := len, src := src, srcAvail := srcAvail, dst := dst, mem := Memory.writeBytes [] a bytes }

/-- The next state of an outcome that has one. -/
def after (o : Host.Outcome State Fault Refusal) : State :=
  match o with
  | .next t => t
  | .fault _ => State.reset
  | .refused _ => State.reset

/-- The outcome is a next state. -/
def isNext (o : Host.Outcome State Fault Refusal) : Bool :=
  match o with
  | .next _ => true
  | .fault _ => false
  | .refused _ => false

theorem eq_next_after {o : Host.Outcome State Fault Refusal} (h : isNext o = true) :
    o = .next (after o) := by
  cases o <;> simp_all [isNext, after]

/-- The state after the step that runs the word `c`. -/
def ran (c : Nat) (s : State) : State := after (step (s.withFetchWord 32 c))

/-- STATUS, LEN, RES0, RES1 and `k` bytes of MEM from `a` on. -/
def seen (s : State) (a k : Nat) : List Nat × List Nat :=
  ([s.statusWord.toNat, s.len.toNat, s.res0.toNat, s.res1.toNat],
    (Memory.readBytes s.mem a k).map BitVec.toNat)

/-- V-NOP: STATUS is DONE alone. -/
theorem test_nop_runs : seen (ran 0x00 (start 7 0 0 0 0 [])) 0 1 = ([0x02, 7, 0, 0], [0]) := by
  decide

/-- LENC of 64, the first value of class 1 (`40_length_codec.md` R122). -/
theorem test_lenc_class_one :
    seen (ran 0x01 (start 64 0 0 0x200 0 [])) 0x200 3 = ([0x02, 64, 2, 0], [0x01, 0x01, 0]) := by
  decide

/-- LENC of `2^32 - 1` ending at the last byte of MEM (`40_length_codec.md` R122). -/
theorem test_lenc_last_bytes :
    seen (ran 0x01 (start 0xFFFFFFFF 0 0 0xFFFFFFFB 0 [])) 0xFFFFFFFB 5
      = ([0x02, 0xFFFFFFFF, 5, 0], [0x03, 0xFF, 0xFF, 0xFF, 0xFF]) := by
  decide

/-- The example of `40_length_codec.md` R125. -/
theorem test_ldec_reads :
    seen (ran 0x02 (start 0 0x100 1 0 0x100 [0x24])) 0x100 1 = ([0x02, 9, 1, 0], [0x24]) := by
  decide

/-- A first byte 0xFF asks for 68 bytes (`40_length_codec.md` R125). -/
theorem test_ldec_truncated :
    seen (ran 0x02 (start 7 0x100 67 0 0x100 [0xFF])) 0 1 = ([0x16, 7, 0, 0], [0]) := by
  decide

/-- The example of `41_padding_calculator.md` R142. -/
theorem test_rbytes_example : seen (ran 0x13 (start 9 0 0 0 0 [])) 0 1 = ([0x02, 9, 2, 1], [0]) := by
  decide

/-- V-PACK-4: a STORE input with dirty padding. -/
theorem test_pack_clears_padding :
    seen (ran 0x84 (start 3 0x100 0 0x200 0x100 [0xBF])) 0x200 2 = ([0x02, 3, 1, 0], [0xA0, 0]) := by
  decide

/-- V-PACK-7: RegionOverlap. -/
theorem test_pack_overlap :
    seen (ran 0x04 (start 9 0x100 0 0x108 0 [])) 0x108 2 = ([0x76, 9, 0, 0], [0, 0]) := by
  decide

/-- V-UNP-9: little-endian word bytes. -/
theorem test_unpack_wide :
    seen (ran 0x55 (start 9 0x100 2 0x200 0x100 [0x80, 0xB2])) 0x200 9
      = ([0x02, 9, 2, 9], [1, 0, 1, 1, 0, 0, 1, 0, 1]) := by
  decide

/-- V-UNP-2: NonZeroPadding. -/
theorem test_unpack_strict :
    seen (ran 0x45 (start 1 0x100 1 0x200 0x100 [0x81])) 0x200 1 = ([0x36, 1, 0, 0], [0]) := by
  decide

/-- V-ENC-5 at W = 16. -/
theorem test_encode_wide :
    seen (ran 0x16 (start 9 0x100 0 0x200 0x100 [1, 0, 1, 1, 0, 0, 1, 0, 1])) 0x200 4
      = ([0x02, 9, 3, 1], [0x24, 0x80, 0xB2, 0]) := by
  decide

/-- V-ENC-11: AddressRange. -/
theorem test_encode_out_of_range :
    seen (ran 0x06 (start 1 0x100 0 0xFFFFFFFF 0x100 [1])) 0x100 1 = ([0x66, 1, 0, 0], [1]) := by
  decide

/-- V-DEC-13. -/
theorem test_decode_wide :
    seen (ran 0x57 (start 0 0x100 3 0x200 0x100 [0x24, 0x80, 0xB2])) 0x200 9
      = ([0x02, 9, 3, 1], [1, 0, 1, 1, 0, 0, 1, 0, 1]) := by
  decide

/-- V-DEC-20: LengthOverflow, from `required_bytes > 2^ADDR_W` with `ADDR_W = 8`. -/
theorem test_decode_length_overflow :
    seen (ran 0x07 { start 0 0x10 2 0x80 0x10 [0x05, 0x20] with params := ⟨8, 0, []⟩ }) 0x80 1
      = ([0x46, 0, 0, 0], [0]) := by
  decide

/-- An illegal word ends with code 5 (`30_encoding.md` R96). -/
theorem test_illegal_word : (ran 0x08 (start 0 0 0 0 0 [])).statusWord = 0x56 := by decide

/-- V-HI-1 (b), the LEN write: discarded with OVF while a NOP runs. -/
theorem test_write_while_busy :
    let t := after (hostRegWrite 0x0C 4 5 (State.reset.accept 0))
    t.len = 0 ∧ t.ovf = true ∧ t.busy = true := by
  decide

/-- The bit counts 2049 and 2048 of V-DEC-20 and V-DEC-21, and the class boundaries of
`40_length_codec.md` R122. -/
theorem test_prefixes :
    lenEncode 63 = [0xFC] ∧ lenEncode 16383 = [0xFD, 0xFF] ∧
      lenEncode (2 ^ 30 - 1) = [0xFE, 0xFF, 0xFF, 0xFF] ∧
      lenEncode (2 ^ 30) = [0x03, 0x00, 0x00, 0x00, 0x40] := by
  decide

/-! ## Witnesses: command words and the codec's functions -/

theorem witness_IllegalWordsRaiseIllegalCommand :
    let s := State.reset.accept 0x00000107
    s.busy = true ∧ s.resetLine = false ∧ (CmdFields.ofWord s.cmd).WellFormed = false := by
  decide

theorem witness_IllegalWordReadsAndWritesNothing :
    (State.reset.launch 0x0000000F).busy = true ∧ (State.reset.launch 0x0000000F).resetLine = false ∧
      (State.reset.launch 0x0000000F).EngineNext ∧
      ∃ e, decode (State.reset.launch 0x0000000F).cmd = .error e :=
  ⟨rfl, rfl, .inr rfl, .reservedOp, rfl⟩

/-- Every proper initial part of the longest prefix, the empty and the largest one. -/
theorem witness_PrefixRoundTrip :
    2 ^ 32 - 1 < 2 ^ 32 ∧ 0 < (lenEncode 0).length ∧ 4 < (lenEncode (2 ^ 32 - 1)).length := by
  decide

/-- Each class at its least and greatest value. -/
theorem witness_PrefixSizeClasses :
    (0 < 2 ^ 6 ∧ 63 < 2 ^ 6) ∧ (2 ^ 6 ≤ 64 ∧ 64 < 2 ^ 14 ∧ 2 ^ 6 ≤ 16383 ∧ 16383 < 2 ^ 14) ∧
      (2 ^ 14 ≤ 16384 ∧ 16384 < 2 ^ 30 ∧ 2 ^ 14 ≤ 2 ^ 30 - 1 ∧ 2 ^ 30 - 1 < 2 ^ 30) ∧
      (2 ^ 30 ≤ 2 ^ 30 ∧ 2 ^ 30 < 2 ^ 32 ∧ 2 ^ 30 ≤ 2 ^ 32 - 1 ∧ 2 ^ 32 - 1 < 2 ^ 32) ∧
      (lenEncode 63).length = 1 ∧ (lenEncode 16383).length = 2 ∧
      (lenEncode (2 ^ 30 - 1)).length = 4 ∧ (lenEncode (2 ^ 32 - 1)).length = 5 := by
  decide

theorem witness_PrefixIsMinimal :
    lenDecode [0x01, 0x00] = .ok (0, 2) ∧ (lenEncode 0).length = 1 := by decide

/-- Truncated, too large and read, each at a boundary. -/
theorem witness_FirstByteTellsPrefixLength :
    lenDecode [0x01] = .error .truncatedLengthPrefix ∧ 1 < prefixBytesFrom 0x01 ∧
      lenDecode [0x07, 0, 0, 0, 0, 1] = .error .lengthOverflow ∧
      2 ^ 32 ≤ le (([0, 0, 0, 0, 1] : List Byte).take (prefixBytesFrom 0x07 - 1)) ∧
      lenDecode [0x03, 0xFF, 0xFF, 0xFF, 0xFF] = .ok (2 ^ 32 - 1, 5) := by
  decide

/-- Both ends of the block of the second 16-bit word. -/
theorem witness_FootprintIsMonotone :
    9 ≤ 16 ∧ 1 ≤ 2 ∧ (2 - 1) * wbits .w16 < 17 ∧ 17 ≤ 2 * wbits .w16 ∧ 32 ≤ 2 * wbits .w16 ∧
      requiredBytes 17 .w16 = 4 ∧ requiredBytes 32 .w16 = 4 := by
  decide

theorem witness_FootprintFitsARegister :
    2 ^ 32 - 1 < 2 ^ 32 ∧ requiredBytes (2 ^ 32 - 1) .w64 = 2 ^ 29 := by decide

theorem witness_BitPlacement :
    WordWidth.w16 ≠ .w8 ∧ WordWidth.w64 ≠ .w8 ∧ byteIndex 0 .w16 = 1 ∧ bitInByte 0 .w16 = 7 := by
  decide

/-- The last word of a 9-bit body of 8-bit words, and its first padding position. -/
theorem witness_PackingFormsAgree : 1 < cdiv 9 (wbits .w8) ∧ 9 ≤ 9 := by decide

theorem witness_PackedBitsReadBack : 8 < 9 := by decide

/-- A LANE buffer and a STORE buffer with dirty padding, with the content `101`
(`95_test_vectors.md`, program P2). -/
theorem witness_PackingIsCanonical :
    ∀ i, i < 3 → inBits .lane [0x01, 0x00, 0x01] .w8 i = inBits .store [0xBF] .w8 i := by
  decide

/-- A 9-bit body of one 16-bit word, with clean and with dirty padding; index 8 is the last bit, 9 the
first padding position and 15 the last. -/
theorem witness_UnpackedOutput :
    ([0x80, 0xB2] : List Byte).length = requiredBytes 9 .w16 ∧
      paddingNonZero [0x80, 0xB2] 9 .w16 = false ∧
      ([0x01, 0xB2] : List Byte).length = requiredBytes 9 .w16 ∧
      paddingNonZero [0x01, 0xB2] 9 .w16 = true ∧ 8 < 9 ∧ 9 ≤ 15 ∧
      15 < cdiv 9 (wbits .w16) * wbits .w16 ∧ getBit [0x01, 0xB2] .w16 15 = true := by
  decide

theorem witness_SequenceRoundTrip :
    2 ^ 32 - 1 < 2 ^ 32 ∧ requiredBytes (2 ^ 32 - 1) .w8 ≤ 2 ^ 32 ∧
      2048 < 2 ^ 32 ∧ requiredBytes 2048 .w8 ≤ 2 ^ 8 := by
  decide

/-- An empty sequence and one with a body. -/
theorem witness_TruncatedEncodingFails :
    0 < 2 ^ 32 ∧ requiredBytes 0 .w8 = 0 ∧ 1 < 2 ^ 32 ∧ requiredBytes 1 .w8 ≤ 2 ^ 8 ∧
      requiredBytes 1 .w8 ≠ 0 := by
  decide

/-- Nine bits take two body bytes at both widths (V-DEC-14 to V-DEC-16). -/
theorem witness_WidthMismatchIsNotDetected :
    9 < 2 ^ 32 ∧ requiredBytes 9 .w8 = requiredBytes 9 .w16 ∧ requiredBytes 9 .w16 ≤ 2 ^ 8 ∧
      paddingNonZero [0xB2, 0x80] 9 .w16 = true ∧ paddingNonZero [0x00, 0x00] 9 .w16 = false := by
  decide

/-! ## Witnesses: the commands -/

/-- The prefix of the largest LEN, ending at the last byte of MEM. -/
theorem witness_LencWritesPrefix :
    let s := start 0xFFFFFFFF 0 0 0xFFFFFFFB 0 []
    s.inRange s.dst.toNat (lenEncode s.len.toNat).length := by
  decide

theorem witness_LdecReadsPrefix :
    let s := start 0 0xFFFFFFFE 2 0 0xFFFFFFFE [0x01, 0x01]
    s.inRange s.src.toNat s.srcAvail.toNat ∧ lenDecode (availableBytes s) = .ok (64, 2) := by
  decide

/-- Adjacent regions, as in V-PACK-8. -/
theorem witness_PackWritesBody :
    let s := start 8 0x100 0 0x108 0x100 [1, 1, 1, 1, 0, 0, 0, 1]
    s.inRange s.src.toNat (formatSize .lane 8 .w8) ∧ s.inRange s.dst.toNat (requiredBytes 8 .w8) ∧
      ¬ overlap s.src.toNat (formatSize .lane 8 .w8) s.dst.toNat (requiredBytes 8 .w8) := by
  decide

/-- V-UNP-8: only the byte read counts for the overlap. -/
theorem witness_UnpackWritesBits :
    let s := start 8 0x100 4 0x101 0x100 [0xA5, 0x11, 0x22, 0x33]
    s.inRange s.src.toNat s.srcAvail.toNat ∧ requiredBytes 8 .w8 ≤ s.srcAvail.toNat ∧
      paddingNonZero (Memory.readBytes s.mem s.src.toNat (requiredBytes 8 .w8)) 8 .w8 = false ∧
      s.inRange s.dst.toNat (formatSize .lane 8 .w8) ∧
      ¬ overlap s.src.toNat (requiredBytes 8 .w8) s.dst.toNat (formatSize .lane 8 .w8) := by
  decide

/-- V-ENC-10: adjacent is legal. -/
theorem witness_EncodeWritesSequence :
    let s := start 1 0x100 0 0xFE 0x100 [1]
    let p := (lenEncode 1).length
    s.inRange s.src.toNat (formatSize .lane 1 .w8) ∧
      s.inRange s.dst.toNat (p + requiredBytes 1 .w8) ∧
      ¬ overlap s.src.toNat (formatSize .lane 1 .w8) s.dst.toNat (p + requiredBytes 1 .w8) := by
  decide

/-- V-DEC-12: the output over the unconsumed byte. -/
theorem witness_DecodeReadsSequence :
    let s := start 0 0x100 3 0x102 0x100 [0x04, 0x80, 0x77]
    s.inRange s.src.toNat s.srcAvail.toNat ∧
      decodeFn s.params.addrW (availableBytes s) .w8 true = .ok ⟨1, 1, [0x80]⟩ ∧
      s.inRange s.dst.toNat (formatSize .lane 1 .w8) ∧
      ¬ overlap s.src.toNat (1 + requiredBytes 1 .w8) s.dst.toNat (formatSize .lane 1 .w8) := by
  decide

/-- A running illegal word. -/
theorem witness_ChecksAreInOrder :
    (State.reset.accept 0x00000008).busy = true ∧
      (State.reset.accept 0x00000008).resetLine = false ∧
      ∃ e, decode (State.reset.accept 0x00000008).cmd = .error e :=
  ⟨rfl, rfl, .reservedOp, rfl⟩

/-- V-DEC-8, an error, and V-DEC-2, a success. -/
theorem witness_ErrorsAreAllOrNothing :
    (∃ t, exec (.decode .w8 true .lane) (start 0 0x100 2 0x200 0x100 [0x04, 0xC0]) = .next t ∧
      t.ecode = 3) ∧
    ∃ t, exec (.decode .w8 true .lane) (start 0 0x100 2 0x200 0x100 [0x04, 0x80]) = .next t ∧
      t.ecode = 0 :=
  ⟨⟨after _, eq_next_after (by decide), by decide⟩,
    after _, eq_next_after (by decide), by decide⟩

theorem witness_EncodeSideHasNoCodecErrors :
    ∃ t, exec (.pack .w8 .lane) (start 9 0x100 0 0x108 0 []) = .next t ∧ t.ecode = 7 ∧
      (∀ w b f, Instr.pack .w8 .lane ≠ .unpack w b f) ∧
      (∀ w b f, Instr.pack .w8 .lane ≠ .decode w b f) ∧ Instr.pack .w8 .lane ≠ .ldec :=
  ⟨after _, eq_next_after (by decide), by decide, by simp, by simp, by simp⟩

theorem witness_CommandFrame :
    ∃ t, exec (.encode .w8 .lane) (start 1 0x100 0 0x200 0x100 [1]) = .next t ∧
      writesLen (.encode .w8 .lane) = false ∧
      writtenSize (.encode .w8 .lane) (start 1 0x100 0 0x200 0x100 [1]) t = 2 :=
  ⟨after _, eq_next_after (by decide), by decide, by decide⟩

/-- V-DEC-12, with another value in the byte not consumed. -/
theorem witness_DecodeReadsOnlyConsumedBytes :
    let s := start 0 0x100 3 0x200 0x100 [0x04, 0x80, 0x77]
    let m := Memory.writeBytes [] 0x100 [0x04, 0x80, 0x78]
    ∃ t, exec (.decode .w8 true .lane) s = .next t ∧ t.ecode = 0 ∧ t.res0.toNat = 2 ∧
      ∀ j, j < 2 → Memory.read m (0x100 + j) = Memory.read s.mem (0x100 + j) :=
  ⟨after _, eq_next_after (by decide), by decide, by decide,
    by decide⟩

/-- Program P1 of `95_test_vectors.md`: encode one bit at 0x200, then decode it to 0x300. -/
theorem witness_EncodeThenDecode :
    let s := start 1 0x100 0 0x200 0x100 [1]
    let t := after (exec (.encode .w8 .lane) s)
    let u := { t with src := 0x200, srcAvail := 2, dst := 0x300 }
    exec (.encode .w8 .lane) s = .next t ∧ t.ecode = 0 ∧ u.params = s.params ∧ u.src = s.dst ∧
      t.res0.toNat ≤ u.srcAvail.toNat ∧ u.inRange u.src.toNat u.srcAvail.toNat ∧
      (∀ c, s.dst.toNat ≤ c → c < s.dst.toNat + t.res0.toNat →
        Memory.read u.mem c = Memory.read t.mem c) ∧
      u.inRange u.dst.toNat (formatSize .lane s.len.toNat .w8) ∧
      ¬ overlap u.src.toNat t.res0.toNat u.dst.toNat (formatSize .lane s.len.toNat .w8) :=
  ⟨eq_next_after (by decide), by decide, by decide, by decide,
    by decide, by decide, fun _ _ _ => rfl, by decide, by decide⟩

/-! ## Witnesses: steps, the register window, MEM and reset -/

/-- ENCODE of one bit, accepted and running, with no move to come. -/
def busyState : State := (start 1 0x100 0 0x200 0x100 [1]).accept 0x06

/-- The same with one move to come. -/
def busyWith (m : Move) : State := { busyState with moves := [m] }

theorem busyState_running : busyState.running = some (.encode .w8 .lane) := by decide

theorem busyWith_running (m : Move) : (busyWith m).running = some (.encode .w8 .lane) :=
  busyState_running

/-- The engine's turn from an empty list and from one it heads. -/
theorem witness_StepRunsDecodedCommand :
    (busyState.EngineNext ∧ busyState.Ready (.encode .w8 .lane)) ∧
      (busyWith .engine).EngineNext ∧ (busyWith .engine).Ready (.encode .w8 .lane) :=
  ⟨⟨.inl rfl, busyState_running, rfl, rfl, rfl⟩, .inr rfl, busyWith_running _, rfl, rfl, rfl⟩

theorem witness_StepMakesTheOldestMove :
    (busyWith .engine).moves = .engine :: [] ∧ busyState.moves = [] := ⟨rfl, rfl⟩

/-- A command running and none. -/
theorem witness_EngineTurnCompletes :
    (busyState.resetLine = false ∧ busyState.params.nonRam = [] ∧ busyState.busy = true) ∧
      State.reset.resetLine = false ∧ State.reset.params.nonRam = [] ∧ State.reset.busy = false := by
  decide

/-- By the engine and by reset. Reset leaves draws in MEM, so its next state is not computed here. -/
theorem witness_OnlyCompletionOrResetClearsBusy :
    (∃ t, step (busyWith .engine) = .next t ∧ (busyWith .engine).busy = true ∧ t.busy = false) ∧
      ∃ t, step (busyWith .assertReset) = .next t ∧ (busyWith .assertReset).busy = true ∧
        t.busy = false :=
  ⟨⟨after _, eq_next_after (by decide), rfl, by decide⟩,
    after _, eq_next_after (by decide), rfl, by decide⟩

/-- A write of LEN while the command runs. -/
theorem witness_RunningCommandIsUndisturbed :
    ∃ t, step (busyWith (.regWrite 0x0C 4 5)) = .next t ∧
      (busyWith (.regWrite 0x0C 4 5)).busy = true ∧ t.busy = true :=
  ⟨after _, eq_next_after (by decide), rfl, by decide⟩

/-- OVF cleared by a write of 0x08 to STATUS, and set by a write of LEN while a command runs. -/
theorem witness_OvfIsSticky :
    (∃ t, step { State.reset with ovf := true, moves := [.regWrite 0x04 4 0x08] } = .next t ∧
      t.ovf = false) ∧
    ∃ t, step (busyWith (.regWrite 0x0C 4 5)) = .next t ∧
      (busyWith (.regWrite 0x0C 4 5)).ovf = false ∧ t.ovf = true :=
  ⟨⟨after _, eq_next_after (by decide), by decide⟩,
    after _, eq_next_after (by decide), rfl, by decide⟩

/-- The premises on BUSY and the reset input of the statements about the register window. -/
theorem witness_CommandWriteAccepted : State.reset.busy = false ∧ State.reset.resetLine = false := by
  decide

theorem witness_BusyWritesAreDiscarded :
    busyState.busy = true ∧ busyState.resetLine = false := by decide

theorem witness_StatusWriteClears : busyState.resetLine = false := by decide

theorem witness_CtrlDrivesIrq : busyState.resetLine = false := by decide

theorem witness_OperandRegistersHoldWrites :
    State.reset.busy = false ∧ State.reset.resetLine = false := by decide

/-- RES0, the first and the last reserved offset. -/
theorem witness_ReadOnlyOffsetsIgnoreWrites :
    (7 ≤ 7 ∧ 7 < 16) ∧ 9 ≤ 9 ∧ (9 ≤ 15 ∧ 15 < 16) := by decide

/-- The first and the last register; an access off by two, one of two bytes, one past the window. -/
theorem witness_OnlyAlignedWordAccesses :
    ((0 < 16 ∧ State.reset.params.base = State.reset.params.base + 4 * 0) ∧
      15 < 16 ∧ State.reset.params.base + 0x3C = State.reset.params.base + 4 * 15) ∧
    (¬ ∃ k, k < 16 ∧ State.reset.params.base + 2 = State.reset.params.base + 4 * k) ∧
    (¬ (2 : Nat) = 4) ∧
    ¬ ∃ k, k < 16 ∧ State.reset.params.base + 0x40 = State.reset.params.base + 4 * k := by
  refine ⟨by decide, ?_, by decide, ?_⟩ <;> rintro ⟨k, hk, h⟩ <;>
    simp only [State.reset, Params.standard] at h <;> omega

/-- While ENCODE runs: 0x400 is neither input nor output, 0x100 is input, 0x201 the last output byte. -/
theorem witness_HostMemoryAccess :
    0x400 < busyState.memSize ∧ isNonRam busyState 0x400 = false ∧
      0x201 < busyState.memSize ∧ isNonRam busyState 0x201 = false ∧
      busyState.running = some (.encode .w8 .lane) ∧
      (Move.memWrite 0x400 1).KeepsDuty busyState ∧ (Move.memRead 0x400).KeepsDuty busyState ∧
      (Move.memRead 0x100).KeepsDuty busyState ∧
      ¬ (Move.memWrite 0x100 1).KeepsDuty busyState ∧
      ¬ (Move.memWrite 0x201 1).KeepsDuty busyState ∧
      ¬ (Move.memRead 0x201).KeepsDuty busyState := by
  refine ⟨by decide, by decide, by decide, by decide,
    busyState_running, ?_, ?_, ?_, ?_, ?_, ?_⟩ <;>
    simp only [Move.KeepsDuty, busyState_running] <;> decide

theorem witness_DutyKeepsCommandsUnraced :
    ∃ t, step (busyWith (.memRead 0x100)) = .next t ∧
      (busyWith (.memRead 0x100)).raced = false ∧
      ∀ m, (busyWith (.memRead 0x100)).moves.head? = some m →
        m.KeepsDuty (busyWith (.memRead 0x100)).taken := by
  refine ⟨after _, eq_next_after (by decide), rfl, ?_⟩
  rintro m h
  obtain rfl : Move.memRead 0x100 = m := Option.some.inj h
  have hr : (busyWith (.memRead 0x100)).taken.running = some (.encode .w8 .lane) :=
    busyState_running
  simp only [Move.KeepsDuty, hr]
  decide

/-- A raced command with two output bytes, and an address just past them. -/
theorem witness_RacedCommandEndsInDraws :
    let s := { busyState with raced := true }
    let r := clip s (outputRegion (.encode .w8 .lane) s)
    s.running = some (.encode .w8 .lane) ∧ s.resetLine = false ∧ s.raced = true ∧
      touchesNonRam (.encode .w8 .lane) s = false ∧ 0 < r.2 ∧ 1 < r.2 ∧ ¬ inside r 0x202 :=
  ⟨busyState_running, rfl, rfl, rfl, by decide, by decide, by decide⟩

/-- V-DEC-2, and the first address past the largest region, eight bytes for one byte of body. -/
theorem witness_OutputStaysInLargestRegion :
    ∃ t, exec (.decode .w8 false .lane) (start 0 0x100 2 0x200 0x100 [0x04, 0x80]) = .next t ∧
      ¬ inside (outputRegion (.decode .w8 false .lane)
        (start 0 0x100 2 0x200 0x100 [0x04, 0x80])) 0x208 :=
  ⟨after _, eq_next_after (by decide), by decide⟩

/-- A legal command running; no command running, because BUSY is 0 and because the word is illegal. -/
theorem witness_ResetClearsRegisters :
    busyState.params.nonRam = [] ∧
      (State.reset.params.nonRam = [] ∧ State.reset.running = none) ∧
      (State.reset.accept 0x08).params.nonRam = [] ∧ (State.reset.accept 0x08).busy = true ∧
      (State.reset.accept 0x08).running = none := by
  decide

/-- Held in reset, the host's write does nothing; then reset is released. -/
theorem witness_ResetHoldsRegisters :
    let s := { State.reset with resetLine := true, moves := [.regWrite 0x0C 4 5] }
    let u := { State.reset with resetLine := true, moves := [.releaseReset] }
    (s.Inv ∧ s.resetLine = true ∧ ∃ t, step s = .next t) ∧
      u.Inv ∧ u.resetLine = true ∧ ∃ t, step u = .next t ∧ t.resetLine = false := by
  refine ⟨⟨?_, rfl, after _, eq_next_after (by decide)⟩, ?_, rfl, after _,
    eq_next_after (by decide), by decide⟩ <;>
    unfold State.Inv <;> decide

theorem witness_ResetAbandonsCommand :
    busyState.running = some (.encode .w8 .lane) ∧ busyState.raced = false ∧
      touchesNonRam (.encode .w8 .lane) busyState = false ∧
      ∃ u, exec (.encode .w8 .lane) busyState = .next u :=
  ⟨busyState_running, rfl, rfl, after _, eq_next_after (by decide)⟩

theorem witness_StepKeepsInvariant :
    (busyWith .engine).Inv ∧ ∃ t, step (busyWith .engine) = .next t :=
  ⟨by unfold State.Inv; decide, after _, eq_next_after (by decide)⟩

end Sys2Proof.Tests
end

section
/-!
SUPPORT. The schedule and the engine's turn (`00_scope.md` R16, R19): what a step is for each shape of
the list of moves, and what the engine's step is when it can carry out a command's rule.
-/

namespace Sys2Proof.Machine

variable {s : State}

/-! ## The schedule -/

theorem step_of_moves_nil (h : s.moves = []) : step s = engineStep s := by
  rw [step, nextMove, h]

theorem step_of_moves_cons {m : Move} {ms : List Move} (h : s.moves = m :: ms) :
    step s = runMove m { s with moves := ms } := by
  rw [step, nextMove, h]

theorem taken_of_moves_nil (h : s.moves = []) : s.taken = s := by
  rw [State.taken, h, List.tail_nil, ← h]

theorem taken_of_moves_cons {m : Move} {ms : List Move} (h : s.moves = m :: ms) :
    s.taken = { s with moves := ms } := by
  rw [State.taken, h, List.tail_cons]

/-- Whether its turn is on the list or the list is empty, the engine moves in the state with the
oldest move taken off. -/
theorem step_of_engineNext (h : s.EngineNext) : step s = engineStep s.taken := by
  obtain hnil | hhead := h
  · rw [step_of_moves_nil hnil, taken_of_moves_nil hnil]
  · obtain ⟨ms, hcons⟩ := List.head?_eq_some_iff.1 hhead
    rw [step_of_moves_cons hcons, taken_of_moves_cons hcons, runMove]

/-! ## The engine's turn -/

/-- Readiness does not depend on the moves to come. -/
@[simp] theorem State.taken_ready {i : Instr} : s.taken.Ready i ↔ s.Ready i := Iff.rfl

/-- An engine that is ready for a command carries out that command's meaning. -/
theorem engineStep_of_ready {i : Instr} (h : s.Ready i) : engineStep s = exec i s := by
  obtain ⟨hrun, hline, hraced, hram⟩ := h
  rw [engineStep_running hrun hline hram, exec_eq_finish, if_neg (Bool.eq_false_iff.1 hraced)]

/-! ## The statements -/

/-- Settles O34: the step is the engine's turn in the state with the move taken off, where the engine
is still ready. -/
theorem stepRunsDecodedCommand : Obligations.StepRunsDecodedCommand := by
  intro s i hnext hready
  rw [step_of_engineNext hnext, engineStep_of_ready (State.taken_ready.2 hready)]

/-- Settles O35, by the two shapes of the list of moves. -/
theorem stepMakesTheOldestMove : Obligations.StepMakesTheOldestMove :=
  ⟨fun _ _ _ => step_of_moves_cons, fun _ => step_of_moves_nil⟩

end Sys2Proof.Machine
end

section
/-!
SUPPORT. The invariant of the BSPU: how it survives changes outside the block, the mark of a race, a
completed command, a register write and reset; from these, that one move of one agent keeps it.
-/

namespace Sys2Proof.Machine

variable {s t : State}

/-! ## The schedule and the engine's turn -/

/-- A step is one move, made in the state with the oldest move taken off: that move, or,
with none to come, the engine's. -/
theorem step_next_runMove (h : step s = .next t) :
    ∃ m, (s.moves.head? = some m ∨ m = .engine) ∧ runMove m s.taken = .next t := by
  obtain ⟨hnil, hengine⟩ | ⟨m, ms, hcons, hmove⟩ := step_next_cases h
  · exact ⟨.engine, .inr rfl, by rwa [taken_of_moves_nil hnil]⟩
  · exact ⟨m, .inl (by rw [hcons, List.head?_cons]), by rwa [taken_of_moves_cons hcons]⟩

/-- An enabled engine ends the command: by the word check, in draws, or by the command's plan. -/
theorem engineStep_next_ends (h : engineStep s = .next t) :
    t = s ∨ s.resetLine = false ∧
      (t = s.complete 5 ∨ ∃ i, t = racedCompletion i s ∨ t = s.finish (plan i s)) := by
  obtain ⟨_, ht⟩ | ⟨_, hline, ⟨_, ht⟩ | ⟨i, _, _, ⟨_, ht⟩ | ⟨_, ht⟩⟩⟩ := engineStep_next_cases h
  · exact .inl ht
  · exact .inr ⟨hline, .inl ht⟩
  · exact .inr ⟨hline, .inr ⟨i, .inl ht⟩⟩
  · exact .inr ⟨hline, .inr ⟨i, .inr ht⟩⟩

/-! ## MEM after a sequence write -/

theorem State.MemOk.writeBytes (h : s.MemOk) {a : Nat} {v : List Byte}
    (hv : v = [] ∨ a + v.length ≤ s.memSize) :
    Memory.Wf (Memory.writeBytes s.mem a v) ∧
      Memory.Within (Memory.writeBytes s.mem a v) s.memSize :=
  ⟨Memory.writeBytes_wf _ a v h.1, Memory.writeBytes_within _ a v h.2 hv⟩

theorem finish_memOk (i : Instr) (h : s.MemOk) : (s.finish (plan i s)).MemOk := by
  obtain ⟨e, _, hfin⟩ | ⟨f, hplan, hfin⟩ := finish_cases s (plan i s) <;> rw [hfin]
  · exact h
  · exact h.writeBytes (plan_ok_within i s hplan)

/-- The drawn output of a raced command lies in MEM, or is empty. -/
theorem drawBytes_clip_within (k : Nat) (r : Region) :
    drawBytes k (clip s r).2 = [] ∨
      (clip s r).1 + (drawBytes k (clip s r).2).length ≤ s.memSize := by
  rw [← List.length_eq_zero_iff, drawBytes_length]
  exact clip_within r

theorem racedCompletion_memOk (i : Instr) (h : s.MemOk) : (racedCompletion i s).MemOk :=
  h.writeBytes (drawBytes_clip_within _ _)

/-- The output a reset abandons lies in MEM, or is empty. -/
theorem abandonedOutput_within (i : Instr) (s : State) :
    (abandonedOutput i s).2 = [] ∨
      (abandonedOutput i s).1 + (abandonedOutput i s).2.length ≤ s.memSize := by
  unfold abandonedOutput
  split
  · exact drawBytes_clip_within _ _
  · split
    · exact .inl rfl
    · exact plan_ok_within i s ‹_›

theorem abandonedMemory_ok (i : Instr) (h : s.MemOk) :
    Memory.Wf (abandonedMemory i s) ∧ Memory.Within (abandonedMemory i s) s.memSize := by
  refine h.writeBytes ?_
  rw [← List.length_eq_zero_iff, mixBytes_length, List.length_eq_zero_iff]
  exact abandonedOutput_within i s

/-! ## What keeps the invariant -/

theorem State.Inv.memOk (h : s.Inv) : s.MemOk := h.1

theorem State.Inv.legal (h : s.Inv) : s.params.Legal := h.2.1

theorem resetOk_of_released (hline : s.resetLine = false) : s.ResetOk :=
  fun h => by simp [hline] at h

/-- An idle block that is not held in reset meets the invariant when MEM, the platform and
ECODE do. -/
theorem inv_of_idle (hmem : s.MemOk) (hparams : s.params.Legal) (hcode : s.CodeOk)
    (hbusy : s.busy = false) (hraced : s.raced = false) (hline : s.resetLine = false) : s.Inv :=
  ⟨hmem, hparams, hcode, fun h => by simp [hbusy] at h, fun h => by simp [hraced] at h,
    resetOk_of_released hline⟩

/-- A block whose registers hold their reset values meets the invariant when MEM and the
platform do. -/
theorem inv_of_eq_clearRegisters (hmem : s.MemOk) (hparams : s.params.Legal)
    (h : s = s.clearRegisters) : s.Inv := by
  refine ⟨hmem, hparams, ?_, ?_, ?_, fun _ => h⟩ <;> rw [h] <;> simp

/-- The invariant does not see the moves to come, the last reply or the draw counter, and of MEM
only its form. -/
theorem State.Inv.surroundings (h : s.Inv) {m : Memory}
    (hm : Memory.Wf m ∧ Memory.Within m s.memSize) (ms : List Move) (r : Reply) (k : Nat) :
    State.Inv { s with mem := m, moves := ms, reply := r, draws := k } := by
  obtain ⟨_, hparams, hcode, hbusy, hrace, hreset⟩ := h
  exact ⟨hm, hparams, hcode, hbusy, hrace, fun hline => by rw [hreset hline]; rfl⟩

theorem State.Inv.taken (h : s.Inv) : s.taken.Inv :=
  h.surroundings h.memOk s.moves.tail s.reply s.draws

/-- While reset is asserted no command runs. -/
theorem State.Inv.resetLine_of_busy (h : s.Inv) (hbusy : s.busy = true) : s.resetLine = false := by
  obtain ⟨_, _, _, _, _, hreset⟩ := h
  refine Bool.eq_false_iff.2 fun hline => ?_
  rw [hreset hline, State.clearRegisters_busy] at hbusy
  cases hbusy

/-- A running command may be marked as raced. -/
theorem State.Inv.mark_raced (h : s.Inv) (hrun : s.busy = true) :
    State.Inv { s with raced := true } := by
  have hline := h.resetLine_of_busy hrun
  obtain ⟨hmem, hparams, hcode, hbusy, _, _⟩ := h
  exact ⟨hmem, hparams, hcode, hbusy, fun _ => hrun, resetOk_of_released hline⟩

/-! ## What each move does to it -/

theorem drawn_code_le_seven (k : Nat) : ((Config.freeCode k).zeroExtend 4).toNat ≤ 7 := by
  have := (Config.freeCode k).isLt
  simp only [BitVec.truncate_eq_setWidth, BitVec.toNat_setWidth]
  omega

theorem finish_inv (i : Instr) (h : s.Inv) (hline : s.resetLine = false) :
    (s.finish (plan i s)).Inv := by
  have hmem := finish_memOk i h.memOk
  obtain ⟨e, _, hfin⟩ | ⟨f, _, hfin⟩ := finish_cases s (plan i s) <;> rw [hfin] at hmem ⊢
  · exact inv_of_idle hmem h.legal (codeOf_le_seven e) rfl rfl hline
  · exact inv_of_idle hmem h.legal (Nat.zero_le 7) rfl rfl hline

theorem engineStep_inv (h : s.Inv) (hstep : engineStep s = .next t) : t.Inv := by
  obtain rfl | ⟨hline, rfl | ⟨i, rfl | rfl⟩⟩ := engineStep_next_ends hstep
  · exact h
  · exact inv_of_idle h.memOk h.legal (by decide : (5 : BitVec 4).toNat ≤ 7) rfl rfl hline
  · exact inv_of_idle (racedCompletion_memOk i h.memOk) h.legal (drawn_code_le_seven _) rfl rfl
      hline
  · exact finish_inv i h hline

theorem writeReg_inv (r : Reg) (v : Reg32) (h : s.Inv) (hline : s.resetLine = false) :
    (s.writeReg r v).Inv := by
  obtain ⟨hmem, hparams, hcode, hbusy, hrace, _⟩ := h
  obtain ⟨_, hw⟩ | ⟨_, hw⟩ | hw | hw | ⟨_, a, b, c, d, hw⟩ | hw := writeReg_cases r v <;> rw [hw]
  case inl => exact ⟨hmem, hparams, hcode, hbusy, hrace, resetOk_of_released hline⟩
  case inr.inl =>
    exact ⟨hmem, hparams, Nat.zero_le 7, fun _ => ⟨rfl, rfl⟩, fun _ => rfl,
      resetOk_of_released hline⟩
  case inr.inr.inl =>
    refine ⟨hmem, hparams, hcode, fun hb => ?_, hrace, resetOk_of_released hline⟩
    obtain ⟨hdone, hzero⟩ := hbusy hb
    exact ⟨by simp [hdone], hzero⟩
  all_goals exact ⟨hmem, hparams, hcode, hbusy, hrace, resetOk_of_released hline⟩

theorem hostMemRead_inv {a : Nat} (h : s.Inv) (hread : hostMemRead a s = .next t) : t.Inv := by
  have same (r : Reply) (k : Nat) := h.surroundings h.memOk s.moves r k
  obtain ⟨_, _, ⟨i, hrun, _, rfl⟩ | ⟨_, rfl⟩⟩ := hostMemRead_next hread
  · exact (same (.byte (drawnByte i s a)) (s.draws + 1)).mark_raced (running_eq_some.1 hrun).1
  · exact same _ _

theorem hostMemWrite_inv {a : Nat} {b : Byte} (h : s.Inv) (hwrite : hostMemWrite a b s = .next t) :
    t.Inv := by
  obtain ⟨hlt, _, hcases⟩ := hostMemWrite_next hwrite
  obtain ⟨hwf, hin⟩ := h.memOk
  have stored := h.surroundings ⟨Memory.write_wf s.mem a b hwf,
    Memory.write_within s.mem a b hin hlt⟩ s.moves s.reply s.draws
  obtain ⟨i, hrun, _, rfl⟩ | ⟨_, rfl⟩ := hcases
  · exact stored.mark_raced (running_eq_some.1 hrun).1
  · exact stored

theorem assertReset_inv (h : s.Inv) (hassert : assertReset s = .next t) : t.Inv := by
  obtain ⟨_, rfl⟩ | ⟨i, _, _, rfl⟩ := assertReset_next hassert
  · exact inv_of_eq_clearRegisters h.memOk h.legal rfl
  · exact inv_of_eq_clearRegisters (abandonedMemory_ok i h.memOk) h.legal rfl

theorem releaseReset_inv (h : s.Inv) (hrelease : releaseReset s = .next t) : t.Inv := by
  cases hrelease
  obtain ⟨hmem, hparams, hcode, hbusy, hrace, _⟩ := h
  exact ⟨hmem, hparams, hcode, hbusy, hrace, nofun⟩

/-- One move of one agent keeps the invariant. -/
theorem runMove_inv {m : Move} (h : s.Inv) (hmove : runMove m s = .next t) : t.Inv := by
  cases m with
  | engine => exact engineStep_inv h hmove
  | regRead addr size =>
    obtain ⟨_, rfl⟩ := hostRegRead_next hmove
    exact h.surroundings h.memOk s.moves _ s.draws
  | regWrite addr size v =>
    obtain ⟨_, ⟨_, rfl⟩ | ⟨hline, rfl⟩⟩ := hostRegWrite_next hmove
    · exact h
    · exact writeReg_inv _ v h hline
  | memRead a => exact hostMemRead_inv h hmove
  | memWrite a b => exact hostMemWrite_inv h hmove
  | assertReset => exact assertReset_inv h hmove
  | releaseReset => exact releaseReset_inv h hmove

/-! ## The statements -/

/-- Settles O58: a step is one move, and every move keeps the invariant. -/
theorem stepKeepsInvariant : Obligations.StepKeepsInvariant := by
  intro s t h hstep
  obtain ⟨m, _, hmove⟩ := step_next_runMove hstep
  exact runMove_inv h.taken hmove

/-- Settles O57: after reset the block is idle, MEM lists nothing and `ADDR_W` is 32. -/
theorem invariantAtReset : Obligations.InvariantAtReset :=
  inv_of_idle ⟨⟨.nil, nofun⟩, nofun⟩ (by decide) (Nat.zero_le 7) rfl rfl rfl

end Sys2Proof.Machine
end

section
/-!
SUPPORT. The register window (`10_state.md` R20 to R39): which accesses it takes, what a word access
at an offset of the window does, and how STATUS and CTRL read.
-/

namespace Sys2Proof.Machine

variable (s : State)

/-! ## Which accesses reach a register -/

theorem legalAccess_offset {off : Nat} (hlt : off < 64) (hmul : off % 4 = 0) :
    s.legalAccess (s.params.base + off) 4 :=
  ⟨rfl, by omega, by omega, by omega⟩

theorem legalAccess_iff (addr size : Nat) :
    s.legalAccess addr size ↔ (∃ k, k < 16 ∧ addr = s.params.base + 4 * k) ∧ size = 4 := by
  constructor
  · rintro ⟨hsize, hle, hlt, hmul⟩
    exact ⟨⟨(addr - s.params.base) / 4, by omega, by omega⟩, hsize⟩
  · rintro ⟨⟨k, hk, rfl⟩, rfl⟩
    exact legalAccess_offset s (by omega) (by omega)

theorem hostRegRead_offset {off : Nat} (hlt : off < 64) (hmul : off % 4 = 0) :
    hostRegRead (s.params.base + off) 4 s
      = .next { s with reply := .reg (s.readReg (regAt off)) } := by
  rw [hostRegRead, if_pos (legalAccess_offset s hlt hmul), Nat.add_sub_cancel_left]

theorem hostRegWrite_offset {off : Nat} (v : Reg32) (hline : s.resetLine = false) (hlt : off < 64)
    (hmul : off % 4 = 0) :
    hostRegWrite (s.params.base + off) 4 v s = .next (s.writeReg (regAt off) v) := by
  rw [hostRegWrite, if_pos (legalAccess_offset s hlt hmul), Nat.add_sub_cancel_left,
    if_neg (Bool.eq_false_iff.1 hline)]

/-! ## STATUS and CTRL -/

theorem statusWord_toNat :
    s.statusWord.toNat = s.busy.toNat + 2 * s.done.toNat + 4 * s.err.toNat + 8 * s.ovf.toNat
      + 16 * s.ecode.toNat := by
  have := s.busy.toNat_le
  have := s.done.toNat_le
  have := s.err.toNat_le
  have := s.ovf.toNat_le
  have := s.ecode.isLt
  simp only [State.statusWord, bitAt, Nat.shiftLeft_eq, BitVec.toNat_ofNat]
  omega

theorem err_eq_decide : s.err = decide (s.ecode ≠ 0) := by
  rw [State.err, Bool.eq_iff_iff, bne_iff_ne, decide_eq_true_iff]

/-- A bit of a register, read off the register's number. -/
theorem getLsbD_eq_of_toNat {v : Reg32} {k : Nat} {b : Bool} (h : v.toNat / 2 ^ k % 2 = b.toNat) :
    v.getLsbD k = b := by
  rw [BitVec.getLsbD, Nat.testBit_eq_decide_div_mod_eq, h]
  cases b <;> rfl

/-- Settles O43, from the number STATUS is. -/
theorem statusLayout : Obligations.StatusLayout := by
  intro s
  have hword := statusWord_toNat s
  have := s.busy.toNat_le
  have := s.done.toNat_le
  have := s.err.toNat_le
  have := s.ovf.toNat_le
  have := s.ecode.isLt
  refine ⟨?_, ?_, ?_, ?_, ?_, ?_⟩
  · exact getLsbD_eq_of_toNat (by omega)
  · exact getLsbD_eq_of_toNat (by omega)
  · exact (getLsbD_eq_of_toNat (by omega)).trans (err_eq_decide s)
  · exact getLsbD_eq_of_toNat (by omega)
  · apply BitVec.eq_of_toNat_eq
    rw [BitVec.extractLsb'_toNat, Nat.shiftRight_eq_div_pow]
    omega
  · apply BitVec.eq_of_toNat_eq
    rw [BitVec.extractLsb'_toNat, Nat.shiftRight_eq_div_pow]
    simp only [BitVec.ofNat_eq_ofNat, BitVec.toNat_ofNat]
    omega

theorem ctrlWord_eq : s.ctrlWord = if s.ie then 1 else 0 := by
  cases h : s.ie <;> simp [State.ctrlWord, bitAt, h]

theorem reg32_and_one (v : Reg32) : v &&& 1 = if v.getLsbD 0 then 1 else 0 := by
  refine (BitVec.and_one_eq_setWidth_ofBool_getLsbD ..).trans ?_
  cases v.getLsbD 0 <;> rfl

/-! ## Writes -/

/-- Settles O40: with BUSY 0 the register at offset 0x00 accepts the word. -/
theorem commandWriteAccepted : Obligations.CommandWriteAccepted := by
  intro s v hbusy hline
  rw [hostRegWrite_offset s v hline (by decide) (by decide)]
  simp [regAt, State.writeReg, hbusy, State.accept]

/-- Settles O41: each of the five offsets names a register whose write BUSY turns into an
overflow. -/
theorem busyWritesAreDiscarded : Obligations.BusyWritesAreDiscarded := by
  intro s off v hbusy hline hoff
  have hwrite : s.writeReg (regAt off) v = s.overflow := by
    obtain rfl | rfl | rfl | rfl | rfl := hoff <;> exact if_pos hbusy
  rw [hostRegWrite_offset s v hline (by omega) (by omega), hwrite, State.overflow]

/-- Settles O42: the register at offset 0x04 is STATUS, whose write masks DONE and OVF. -/
theorem statusWriteClears : Obligations.StatusWriteClears := by
  intro s v hline
  refine ⟨s.clearStatus v, hostRegWrite_offset s v hline (by decide) (by decide), ?_, ?_, rfl⟩
  · rw [State.clearStatus_done]
    cases v.getLsbD 1 <;> simp
  · rw [State.clearStatus_ovf]
    cases v.getLsbD 3 <;> simp

/-- Settles O44: the written state is `writeCtrl`, and IRQ is read off the fields of each update. -/
theorem ctrlDrivesIrq : Obligations.CtrlDrivesIrq := by
  intro s v hline
  refine ⟨hostRegWrite_offset s v hline (by decide) (by decide), ?_, rfl, ?_, ?_, ?_, ?_⟩
  · exact (ctrlWord_eq (s.writeCtrl v)).trans (reg32_and_one v).symm
  all_goals simp [State.irq]

/-- Settles O45: BUSY is 0 in each of the four writes. -/
theorem operandRegistersHoldWrites : Obligations.OperandRegistersHoldWrites := by
  intro s v hbusy hline
  have idle : ¬ s.busy = true := Bool.eq_false_iff.1 hbusy
  have writes {off : Nat} (hlt : off < 64) (hmul : off % 4 = 0) :=
    hostRegWrite_offset s v hline hlt hmul
  refine ⟨?_, ?_, ?_, ?_⟩ <;> rw [writes (by decide) (by decide)] <;>
    exact congrArg _ (if_neg idle)

/-- From 0x1C on the window holds nothing that can be written. -/
theorem writeReg_readOnly {k : Nat} (v : Reg32) (hk : 7 ≤ k) (hlt : k < 16) :
    s.writeReg (regAt (4 * k)) v = s := by
  interval_cases k <;> rfl

theorem regAt_reserved {k : Nat} (hk : 9 ≤ k) (hlt : k < 16) : regAt (4 * k) = .reserved := by
  interval_cases k <;> rfl

/-- Settles O46: no register from 0x1C on can be written, and from 0x24 on all are reserved. -/
theorem readOnlyOffsetsIgnoreWrites : Obligations.ReadOnlyOffsetsIgnoreWrites := by
  intro s k v hk hlt
  refine ⟨?_, fun hres => ?_⟩
  · rw [hostRegWrite, if_pos (legalAccess_offset s (by omega) (by omega)), Nat.add_sub_cancel_left,
      writeReg_readOnly s v hk hlt, ite_self]
  · rw [hostRegRead_offset s (by omega) (by omega), regAt_reserved hres hlt, State.readReg]

/-! ## Reads and refusals -/

/-- Settles O47: the legal accesses are exactly the word accesses at the sixteen offsets. -/
theorem onlyAlignedWordAccesses : Obligations.OnlyAlignedWordAccesses := by
  intro s addr size v
  rw [← legalAccess_iff]
  refine ⟨fun h => ?_, fun h => ?_⟩
  · exact ⟨⟨_, if_pos h⟩, _, if_pos h⟩
  · exact ⟨if_neg h, if_neg h⟩

/-- Settles O48: nine word reads; CTRL's value is IE in bit 0. -/
theorem hostReadsCurrentValues : Obligations.HostReadsCurrentValues := by
  intro s
  have reads {off : Nat} (hlt : off < 64) (hmul : off % 4 = 0) := hostRegRead_offset s hlt hmul
  refine ⟨?_, ?_, ?_, ?_, ?_, ?_, ?_, ?_, ?_⟩ <;> rw [reads (by decide) (by decide)]
  case refine_3 => rw [regAt, State.readReg, ctrlWord_eq]
  all_goals rfl

/-- Settles O56, register by register. -/
theorem resetState : Obligations.ResetState := by
  refine ⟨fun r => ?_, rfl, rfl, rfl, rfl, rfl, rfl, rfl, rfl⟩
  cases r <;> rfl

end Sys2Proof.Machine
end

section
/-!
SUPPORT. What a running command is kept from (`10_state.md` R36 to R38), and what moves OVF (R24,
R25, R36, R41).
-/

namespace Sys2Proof.Machine

variable {s t : State}

/-! ## While a command runs -/

/-- The latched word, the operands, the results and ECODE are the same, and DONE is not set. -/
def KeepsCommand (s t : State) : Prop :=
  t.cmd = s.cmd ∧ t.len = s.len ∧ t.src = s.src ∧ t.srcAvail = s.srcAvail ∧ t.dst = s.dst ∧
    t.res0 = s.res0 ∧ t.res1 = s.res1 ∧ t.ecode = s.ecode ∧ (s.done = false → t.done = false)

theorem KeepsCommand.refl (s : State) : KeepsCommand s s :=
  ⟨rfl, rfl, rfl, rfl, rfl, rfl, rfl, rfl, id⟩

@[simp] theorem finish_busy (r : Except ErrorCode Effect) : (s.finish r).busy = false := by
  cases r <;> rfl

@[simp] theorem racedCompletion_busy (i : Instr) : (racedCompletion i s).busy = false := rfl

/-- A turn of the engine that leaves BUSY at 1 was not enabled. -/
theorem engineStep_eq_of_busy (h : engineStep s = .next t) (ht : t.busy = true) : t = s := by
  obtain rfl | ⟨_, rfl | ⟨i, rfl | rfl⟩⟩ := engineStep_next_ends h
  · rfl
  all_goals simp at ht

theorem writeReg_keepsCommand (r : Reg) (v : Reg32) (hbusy : s.busy = true) :
    KeepsCommand s (s.writeReg r v) := by
  obtain ⟨_, hw⟩ | ⟨hidle, _⟩ | hw | hw | ⟨hidle, _⟩ | hw := writeReg_cases r v
  case inr.inl | inr.inr.inr.inr.inl => cases hbusy.symm.trans hidle
  case inr.inr.inl =>
    rw [hw]
    exact ⟨rfl, rfl, rfl, rfl, rfl, rfl, rfl, rfl, fun hdone => by simp [hdone]⟩
  all_goals rw [hw]; exact KeepsCommand.refl s

/-- No move touches a command that is running before and after it. -/
theorem runMove_keepsCommand {m : Move} (h : runMove m s = .next t) (hs : s.busy = true)
    (ht : t.busy = true) : KeepsCommand s t := by
  cases m with
  | engine =>
    rw [engineStep_eq_of_busy h ht]
    exact .refl s
  | regRead addr size =>
    obtain ⟨_, rfl⟩ := hostRegRead_next h
    exact .refl s
  | regWrite addr size v =>
    obtain ⟨_, ⟨_, rfl⟩ | ⟨_, rfl⟩⟩ := hostRegWrite_next h
    · exact .refl _
    · exact writeReg_keepsCommand _ v hs
  | memRead a => obtain ⟨_, _, ⟨_, _, _, rfl⟩ | ⟨_, rfl⟩⟩ := hostMemRead_next h <;> exact .refl s
  | memWrite a b =>
    obtain ⟨_, _, ⟨_, _, _, rfl⟩ | ⟨_, rfl⟩⟩ := hostMemWrite_next h <;> exact .refl s
  | assertReset => obtain ⟨_, rfl⟩ | ⟨_, _, _, rfl⟩ := assertReset_next h <;> cases ht
  | releaseReset =>
    cases h
    exact .refl s

/-- Settles O38: a step is one move, and no move touches a command that stays running. -/
theorem runningCommandIsUndisturbed : Obligations.RunningCommandIsUndisturbed := by
  intro s t hstep hs ht
  obtain ⟨m, _, hmove⟩ := step_next_runMove hstep
  exact runMove_keepsCommand (s := s.taken) hmove hs ht

/-! ## OVF -/

@[simp] theorem finish_ovf (r : Except ErrorCode Effect) : (s.finish r).ovf = s.ovf := by
  cases r <;> rfl

@[simp] theorem racedCompletion_ovf (i : Instr) : (racedCompletion i s).ovf = s.ovf := rfl

theorem engineStep_ovf (h : engineStep s = .next t) : t.ovf = s.ovf := by
  obtain rfl | ⟨_, rfl | ⟨i, rfl | rfl⟩⟩ := engineStep_next_ends h
  · rfl
  all_goals simp

/-- The registers whose writes BUSY discards (`10_state.md` R36). -/
def guardedReg : Reg → Bool
  | .cmd => true
  | .len => true
  | .src => true
  | .srcAvail => true
  | .dst => true
  | _ => false

/-- A register write leaves OVF, clears it through STATUS, or is discarded and sets it. -/
theorem writeReg_ovf (r : Reg) (v : Reg32) :
    (s.writeReg r v).ovf = s.ovf ∨
      (r = .status ∧ (s.writeReg r v).ovf = (s.ovf && !v.getLsbD 3)) ∨
      (s.busy = true ∧ guardedReg r = true ∧ (s.writeReg r v).ovf = true) := by
  by_cases hbusy : s.busy = true
  · cases r
    case status => exact .inr (.inl ⟨rfl, rfl⟩)
    case ctrl | res0 | res1 | reserved => exact .inl rfl
    all_goals exact .inr (.inr ⟨hbusy, rfl, by simp [State.writeReg, hbusy]⟩)
  · cases r
    case status => exact .inr (.inl ⟨rfl, rfl⟩)
    case ctrl | res0 | res1 | reserved => exact .inl rfl
    all_goals exact .inl (by simp [State.writeReg, hbusy])

/-- A register of the window that is not reserved has one offset. -/
theorem eq_offsetOf_regAt {off : Nat} (h : regAt off ≠ .reserved) : off = offsetOf (regAt off) := by
  unfold regAt at h ⊢
  split at h
  case h_10 => exact absurd rfl h
  all_goals rfl

/-- How one move may change OVF. -/
theorem runMove_ovf {m : Move} (h : runMove m s = .next t) :
    t.ovf = s.ovf ∨ (m = .assertReset ∧ t.ovf = false) ∨
      ∃ off v, m = .regWrite (s.params.base + off) 4 v ∧
        ((off = offsetOf .status ∧ t.ovf = (s.ovf && !v.getLsbD 3)) ∨
          (s.busy = true ∧ guardedReg (regAt off) = true ∧ t.ovf = true)) := by
  cases m with
  | engine => exact .inl (engineStep_ovf h)
  | regRead addr size =>
    obtain ⟨_, rfl⟩ := hostRegRead_next h
    exact .inl rfl
  | regWrite addr size v =>
    obtain ⟨⟨rfl, hle, _⟩, ⟨_, rfl⟩ | ⟨_, rfl⟩⟩ := hostRegWrite_next h
    · exact .inl rfl
    · obtain ⟨off, rfl⟩ := Nat.exists_eq_add_of_le hle
      rw [Nat.add_sub_cancel_left]
      obtain hsame | ⟨hreg, hclear⟩ | hset := writeReg_ovf (s := s) (regAt off) v
      · exact .inl hsame
      · have hoff : off = offsetOf .status := hreg ▸ eq_offsetOf_regAt (by simp [hreg])
        exact .inr (.inr ⟨off, v, rfl, .inl ⟨hoff, hclear⟩⟩)
      · exact .inr (.inr ⟨off, v, rfl, .inr hset⟩)
  | memRead a => obtain ⟨_, _, ⟨_, _, _, rfl⟩ | ⟨_, rfl⟩⟩ := hostMemRead_next h <;> exact .inl rfl
  | memWrite a b =>
    obtain ⟨_, _, ⟨_, _, _, rfl⟩ | ⟨_, rfl⟩⟩ := hostMemWrite_next h <;> exact .inl rfl
  | assertReset =>
    obtain ⟨_, rfl⟩ | ⟨_, _, _, rfl⟩ := assertReset_next h <;> exact .inr (.inl ⟨rfl, rfl⟩)
  | releaseReset =>
    cases h
    exact .inl rfl

theorem guardedReg_offsets {off : Nat} (h : guardedReg (regAt off) = true) :
    off = 0x00 ∨ off = 0x0C ∨ off = 0x10 ∨ off = 0x14 ∨ off = 0x18 := by
  have hoff : off = offsetOf (regAt off) :=
    eq_offsetOf_regAt fun hres => by simp [hres, guardedReg] at h
  generalize regAt off = r at h hoff
  subst hoff
  cases r <;> simp [guardedReg, offsetOf] at h ⊢

@[simp] theorem State.taken_ovf : s.taken.ovf = s.ovf := rfl

/-- Settles O39: the step is one move; where that move changes OVF it is not the engine's turn, so
it heads the list. -/
theorem ovfIsSticky : Obligations.OvfIsSticky := by
  intro s t hstep
  obtain ⟨m, hnext, hmove⟩ := step_next_runMove hstep
  have heads (hm : m ≠ .engine) : s.moves.head? = some m := hnext.resolve_right hm
  obtain hsame | ⟨rfl, hoff⟩ | ⟨off, v, rfl, hwrite⟩ := runMove_ovf hmove
  · exact ⟨fun hs ht => by simp [hsame, hs] at ht, fun hs ht => by simp [hsame, hs] at ht⟩
  · exact ⟨fun _ _ => .inl (heads nofun), fun _ ht => by simp [hoff] at ht⟩
  · have hhead := heads nofun
    obtain ⟨rfl, hclear⟩ | ⟨hbusy, hreg, hset⟩ := hwrite
    · exact ⟨fun hs ht => .inr ⟨v, hhead, by simpa [hclear, hs] using ht⟩,
        fun hs ht => by simp [hclear, hs] at ht⟩
    · exact ⟨fun _ ht => by simp [hset] at ht,
        fun _ _ => ⟨hbusy, off, v, hhead, guardedReg_offsets hreg⟩⟩

end Sys2Proof.Machine
end

section
/-!
SUPPORT. The frame of a command (`10_state.md` R40): which registers its effect names, and where its
output lies.
-/

namespace Sys2Proof.Machine

variable {i : Instr} {s : State}

/-- Every length that decodes fits LEN (`00_scope.md` R7). -/
theorem lenDecode_ok_lt {v : List Byte} {n p : Nat} (h : lenDecode v = .ok (n, p)) :
    n < 2 ^ 32 := by
  have le_take (u : List Byte) (k : Nat) : le (u.take k) < 256 ^ k :=
    (le_lt _).trans_le (Nat.pow_le_pow_right (by decide) (List.length_take_le k u))
  unfold lenDecode at h
  split at h
  · cases h
  · rename_i b0 rest
    have hb0 := b0.isLt
    split at h
    · cases h
      omega
    · split at h <;> cases h
      have := le_take (b0 :: rest) 2
      omega
    · split at h <;> cases h
      have := le_take (b0 :: rest) 4
      omega
    · split at h
      · cases h
      · split at h <;> cases h
        exact not_le.1 ‹_›

theorem resWord_toNat {n : Nat} (h : n < 2 ^ 32) : (resWord n).toNat = n := by
  rw [resWord, BitVec.toNat_ofNat, Nat.mod_eq_of_lt h]

/-! ## What a successful plan names -/

/-- Only LDEC and DECODE put a value in LEN. -/
theorem plan_ok_len {f : Effect} (h : plan i s = .ok f) (hi : writesLen i = false) :
    f.len = none := by
  cases i with
  | nop | rbytes => cases h; rfl
  | lenc => obtain ⟨_, rfl⟩ := planLenc_ok h; rfl
  | pack => obtain ⟨_, _, _, rfl⟩ := planPack_ok h; rfl
  | unpack => obtain ⟨_, _, _, _, _, rfl⟩ := planUnpack_ok h; rfl
  | encode => obtain ⟨_, _, _, rfl⟩ := planEncode_ok h; rfl
  | ldec | decode => cases hi

/-- The output of a successful command is the region at DST of the size its rule gives; a command
with no output writes no byte. -/
theorem plan_ok_output {f : Effect} (h : plan i s = .ok f) :
    f.bytes = [] ∨
      f.addr = s.dst.toNat ∧ f.bytes.length = writtenSize i s ((s.commit f).complete 0) := by
  cases i with
  | nop | rbytes => cases h; exact .inl rfl
  | ldec => obtain ⟨_, _, _, _, rfl⟩ := planLdec_ok h; exact .inl rfl
  | lenc => obtain ⟨_, rfl⟩ := planLenc_ok h; exact .inr ⟨rfl, rfl⟩
  | pack => obtain ⟨_, _, _, rfl⟩ := planPack_ok h; exact .inr ⟨rfl, packBody_length ..⟩
  | unpack => obtain ⟨_, _, _, _, _, rfl⟩ := planUnpack_ok h; exact .inr ⟨rfl, outBytes_length ..⟩
  | encode => obtain ⟨_, _, _, rfl⟩ := planEncode_ok h; exact .inr ⟨rfl, encodingOf_length ..⟩
  | decode w strict fmt =>
    obtain ⟨d, hdec, _, _, _, rfl⟩ := planDecode_ok h
    obtain ⟨hlen, _⟩ := decodeFrom_ok hdec
    refine .inr ⟨rfl, ?_⟩
    simp [writtenSize, resWord_toNat (lenDecode_ok_lt hlen)]

/-! ## The statement -/

theorem finish_sameSurroundings (r : Except ErrorCode Effect) :
    SameSurroundings s (s.finish r) := by
  cases r <;> exact ⟨rfl, rfl, rfl, rfl, rfl, rfl, rfl, rfl, rfl, rfl, rfl⟩

@[simp] theorem finish_done (r : Except ErrorCode Effect) : (s.finish r).done = true := by
  cases r <;> rfl

/-- Settles O31: a command ends with an error and only STATUS written, or with its plan's effect. -/
theorem commandFrame : Obligations.CommandFrame := by
  intro i s t h
  rw [exec_eq_finish] at h
  cases h
  refine ⟨finish_sameSurroundings _, finish_busy _, finish_done _, ?_⟩
  obtain ⟨e, _, hfin⟩ | ⟨f, hplan, hfin⟩ := finish_cases s (plan i s) <;> rw [hfin]
  · exact ⟨fun _ => rfl, fun _ => ⟨rfl, rfl⟩, fun _ _ => rfl⟩
  · refine ⟨fun hi => ?_, ?_, fun c hc => ?_⟩
    · simp [plan_ok_len hplan hi]
    · rintro rfl
      cases hplan
      exact ⟨rfl, rfl⟩
    · obtain hnone | ⟨haddr, hsize⟩ := plan_ok_output hplan
      · simp [hnone, Memory.writeBytes]
      · exact Memory.read_writeBytes_outside _ _ _ (by rwa [haddr, hsize])

end Sys2Proof.Machine
end

section
/-!
SUPPORT. MEM and the host's duty (`20_memory.md` R60 to R71): what a bus master's byte access does,
what sets the mark of a breach, what a raced command leaves, and that the region the model guards
holds all that a command writes.
-/

namespace Sys2Proof.Machine

variable {i : Instr} {s t : State} {a : Nat} {b : Byte}

/-! ## The duty of a byte access -/

theorem keepsDuty_memWrite_iff :
    (Move.memWrite a b).KeepsDuty s ↔
      ∀ i, s.running = some i → ¬ inside (inputRegion i s) a ∧ ¬ inside (outputRegion i s) a := by
  cases hrun : s.running <;> simp [Move.KeepsDuty, hrun]

theorem keepsDuty_memRead_iff :
    (Move.memRead a).KeepsDuty s ↔ ∀ i, s.running = some i → ¬ inside (outputRegion i s) a := by
  cases hrun : s.running <;> simp [Move.KeepsDuty, hrun]

/-- The engine's own turn breaches nothing. -/
theorem keepsDuty_engine (s : State) : Move.engine.KeepsDuty s := by
  unfold Move.KeepsDuty
  split <;> trivial

/-! ## What a byte access answers -/

/-- A write stores the byte; it marks the running command exactly when it breaches the duty. -/
theorem hostMemWrite_next_duty (h : hostMemWrite a b s = .next t) :
    ((Move.memWrite a b).KeepsDuty s ∧ t = { s with mem := Memory.write s.mem a b }) ∨
      (¬ (Move.memWrite a b).KeepsDuty s ∧
        t = { s with mem := Memory.write s.mem a b, raced := true }) := by
  rw [keepsDuty_memWrite_iff]
  obtain ⟨_, _, ⟨i, hrun, hin, ht⟩ | hkeep⟩ := hostMemWrite_next h
  · exact .inr ⟨fun hduty => not_or.2 (hduty i hrun) hin, ht⟩
  · exact .inl hkeep

/-- A read returns the byte, or, where it breaches the duty, a draw, and then it marks the running
command. -/
theorem hostMemRead_next_duty (h : hostMemRead a s = .next t) :
    ((Move.memRead a).KeepsDuty s ∧ t = { s with reply := .byte (Memory.read s.mem a) }) ∨
      (¬ (Move.memRead a).KeepsDuty s ∧ ∃ i, s.running = some i ∧
        t = { s with reply := .byte (drawnByte i s a), raced := true, draws := s.draws + 1 }) := by
  rw [keepsDuty_memRead_iff]
  obtain ⟨_, _, ⟨i, hrun, hin, ht⟩ | hkeep⟩ := hostMemRead_next h
  · exact .inr ⟨fun hduty => hduty i hrun hin, i, hrun, ht⟩
  · exact .inl hkeep

section Answers

variable (ha : a < s.memSize) (hram : isNonRam s a = false)
include ha hram

theorem hostMemWrite_answers (b : Byte) : ∃ t, hostMemWrite a b s = .next t := by
  rw [hostMemWrite, if_neg (not_le.2 ha), if_neg (Bool.eq_false_iff.1 hram)]
  split
  · split <;> exact ⟨_, rfl⟩
  · exact ⟨_, rfl⟩

theorem hostMemRead_answers : ∃ t, hostMemRead a s = .next t := by
  rw [hostMemRead, if_neg (not_le.2 ha), if_neg (Bool.eq_false_iff.1 hram)]
  split
  · split <;> exact ⟨_, rfl⟩
  · exact ⟨_, rfl⟩

end Answers

theorem drawnByte_cases (i : Instr) (s : State) (a : Nat) :
    drawnByte i s a = Memory.read s.mem a ∨ drawnByte i s a = newByte i s a :=
  (ite_eq_or_eq ..).symm

/-- Settles O49: an existing plain address answers, and either access keeps the duty or breaches
it. -/
theorem hostMemoryAccess : Obligations.HostMemoryAccess := by
  intro s a b ha hram
  constructor
  · obtain ⟨t, hwrite⟩ := hostMemWrite_answers ha hram b
    have other (c : Nat) (hc : c ≠ a) := Memory.read_write_other s.mem a b hc
    obtain ⟨hduty, rfl⟩ | ⟨hbreach, rfl⟩ := hostMemWrite_next_duty hwrite
    · exact ⟨_, hwrite, Memory.read_write_same .., other, rfl, fun _ => rfl, absurd hduty⟩
    · exact ⟨_, hwrite, Memory.read_write_same .., other, rfl, fun h => absurd h hbreach,
        fun _ => rfl⟩
  · obtain ⟨t, hread⟩ := hostMemRead_answers ha hram
    obtain ⟨hduty, rfl⟩ | ⟨hbreach, i, hrun, rfl⟩ := hostMemRead_next_duty hread
    · exact ⟨_, hread, rfl, fun _ => ⟨rfl, rfl⟩, fun _ _ h => absurd hduty h⟩
    · refine ⟨_, hread, rfl, fun h => absurd h hbreach, fun j hj _ => ⟨?_, rfl⟩⟩
      obtain rfl : i = j := Option.some.inj (hrun.symm.trans hj)
      exact (drawnByte_cases i s a).imp (congrArg _) (congrArg _)

/-! ## What sets the mark -/

@[simp] theorem finish_raced (r : Except ErrorCode Effect) : (s.finish r).raced = false := by
  cases r <;> rfl

@[simp] theorem racedCompletion_raced (i : Instr) : (racedCompletion i s).raced = false := rfl

theorem engineStep_unraced (h : engineStep s = .next t) (hs : s.raced = false) :
    t.raced = false := by
  obtain rfl | ⟨_, rfl | ⟨i, rfl | rfl⟩⟩ := engineStep_next_ends h
  · exact hs
  all_goals simp

theorem writeReg_unraced (r : Reg) (v : Reg32) (hs : s.raced = false) :
    (s.writeReg r v).raced = false := by
  obtain ⟨_, hw⟩ | ⟨_, hw⟩ | hw | hw | ⟨_, _, _, _, _, hw⟩ | hw := writeReg_cases r v <;> rw [hw]
  case inr.inl => rfl
  all_goals exact hs

/-- No move that keeps the duty marks a command. -/
theorem runMove_unraced {m : Move} (h : runMove m s = .next t) (hs : s.raced = false)
    (hduty : m.KeepsDuty s) : t.raced = false := by
  cases m with
  | engine => exact engineStep_unraced h hs
  | regRead addr size =>
    obtain ⟨_, rfl⟩ := hostRegRead_next h
    exact hs
  | regWrite addr size v =>
    obtain ⟨_, ⟨_, rfl⟩ | ⟨_, rfl⟩⟩ := hostRegWrite_next h
    · exact hs
    · exact writeReg_unraced _ v hs
  | memRead a =>
    obtain ⟨_, rfl⟩ | ⟨hbreach, _⟩ := hostMemRead_next_duty h
    · exact hs
    · exact absurd hduty hbreach
  | memWrite a b =>
    obtain ⟨_, rfl⟩ | ⟨hbreach, _⟩ := hostMemWrite_next_duty h
    · exact hs
    · exact absurd hduty hbreach
  | assertReset => obtain ⟨_, rfl⟩ | ⟨_, _, _, rfl⟩ := assertReset_next h <;> rfl
  | releaseReset =>
    cases h
    exact hs

/-- Settles O50: the step is one move, the one whose duty is kept or the engine's turn. -/
theorem dutyKeepsCommandsUnraced : Obligations.DutyKeepsCommandsUnraced := by
  intro s t hstep hs hduty
  obtain ⟨m, hhead | rfl, hmove⟩ := step_next_runMove hstep
  · exact runMove_unraced (s := s.taken) hmove hs (hduty m hhead)
  · exact runMove_unraced (s := s.taken) hmove hs (keepsDuty_engine _)

/-! ## A raced command -/

/-- Every byte of the clipped output region is the draw at its own counter. -/
theorem racedCompletion_read_inside (i : Instr) (s : State) {j : Nat}
    (hj : j < (clip s (outputRegion i s)).2) :
    Memory.read (racedCompletion i s).mem ((clip s (outputRegion i s)).1 + j)
      = Config.freeByte (s.draws + j) := by
  refine (Memory.read_writeBytes_inside _ _ _ (by rwa [drawBytes_length])).trans ?_
  simp [drawBytes]

theorem racedCompletion_read_outside (i : Instr) (s : State) {c : Nat}
    (hc : ¬ inside (clip s (outputRegion i s)) c) :
    Memory.read (racedCompletion i s).mem c = Memory.read s.mem c := by
  refine Memory.read_writeBytes_outside _ _ _ ?_
  rw [drawBytes_length]
  omega

/-- Settles O51: the engine's step is the raced completion, whose fields are the draws. -/
theorem racedCommandEndsInDraws : Obligations.RacedCommandEndsInDraws := by
  intro s i hrun hline hraced hram r
  refine ⟨racedCompletion i s, ?_, rfl, rfl, rfl, rfl, drawn_code_le_seven _, rfl, rfl, rfl,
    fun j hj => racedCompletion_read_inside i s hj,
    fun c hc => racedCompletion_read_outside i s hc, Nat.lt_succ_self _, rfl⟩
  rw [engineStep_running hrun hline hram, if_pos hraced]

/-! ## The guarded region -/

/-- Reading a length consumes at least one byte. -/
theorem lenDecode_ok_pos {v : List Byte} {n p : Nat} (h : lenDecode v = .ok (n, p)) : 1 ≤ p := by
  unfold lenDecode at h
  split at h
  · cases h
  · split at h
    · cases h; omega
    · split at h <;> cases h
      omega
    · split at h <;> cases h
      omega
    · split at h
      · cases h
      · split at h <;> cases h
        omega

/-- A body that fits after at least one consumed byte is a whole number of words, so it is no longer
than the largest one. -/
theorem requiredBytes_le_largestBody {n p avail : Nat} {w : WordWidth} (hp : 1 ≤ p)
    (h : requiredBytes n w ≤ avail - p) : requiredBytes n w ≤ largestBody w avail :=
  Nat.mul_le_mul_right _ ((Nat.le_div_iff_mul_le (wbytes_pos w)).2 (h.trans (by omega)))

/-- A sequence has no more bits than its body holds. -/
theorem le_requiredBytes_bits (n : Nat) (w : WordWidth) : n ≤ 8 * requiredBytes n w := by
  rw [requiredBytes_bits]
  exact cdiv_mul_ge n (wbits_pos w)

/-- The content of a body within the largest one lies in the region guarded for DECODE. -/
theorem formatSize_le_decode_outputRegion {n : Nat} {w : WordWidth} (strict : Bool)
    (fmt : MemFormat) (h : requiredBytes n w ≤ largestBody w s.srcAvail.toNat) :
    formatSize fmt n w ≤ (outputRegion (.decode w strict fmt) s).2 := by
  cases fmt with
  | lane => exact (le_requiredBytes_bits n w).trans (Nat.mul_le_mul_left 8 h)
  | store => exact h

theorem decode_writtenSize_le {w : WordWidth} {strict : Bool} {fmt : MemFormat} {f : Effect}
    (h : plan (.decode w strict fmt) s = .ok f) :
    writtenSize (.decode w strict fmt) s ((s.commit f).complete 0)
      ≤ (outputRegion (.decode w strict fmt) s).2 := by
  obtain ⟨d, hdec, _, _, _, rfl⟩ := planDecode_ok h
  obtain ⟨hlen, _, hfits, _, _⟩ := decodeFrom_ok hdec
  have hbody := requiredBytes_le_largestBody (lenDecode_ok_pos hlen) hfits
  simpa [writtenSize, resWord_toNat (lenDecode_ok_lt hlen)] using
    formatSize_le_decode_outputRegion strict fmt hbody

theorem writtenSize_of_error (i : Instr) (s : State) (e : ErrorCode) :
    writtenSize i s (s.complete (codeOf e)) = 0 :=
  if_pos (codeOf_ne_zero e)

theorem finish_writtenSize_le (i : Instr) (s : State) :
    writtenSize i s (s.finish (plan i s)) ≤ (outputRegion i s).2 := by
  obtain ⟨e, _, hfin⟩ | ⟨f, hplan, hfin⟩ := finish_cases s (plan i s) <;> rw [hfin]
  · rw [writtenSize_of_error]
    exact Nat.zero_le _
  · cases i with
    | decode w strict fmt => exact decode_writtenSize_le hplan
    | nop | lenc | ldec | rbytes | pack | unpack | encode => exact Nat.le_refl _

/-- The guarded region starts at DST, or has no byte. -/
theorem outputRegion_at_dst (i : Instr) (s : State) :
    (outputRegion i s).1 = s.dst.toNat ∨ (outputRegion i s).2 = 0 := by
  cases i with
  | nop | ldec | rbytes => exact .inr rfl
  | lenc | pack | unpack | encode => exact .inl rfl
  | decode w strict fmt => cases fmt <;> exact .inl rfl

/-- Settles O52: the written size is within the guarded one, and the frame of the command covers
every other byte. -/
theorem outputStaysInLargestRegion : Obligations.OutputStaysInLargestRegion := by
  intro i s t h
  obtain ⟨_, _, _, _, _, hframe⟩ := commandFrame i s t h
  rw [exec_eq_finish] at h
  cases h
  have hsize := finish_writtenSize_le i s
  refine ⟨hsize, fun c hc => hframe c ?_⟩
  obtain hdst | hnone := outputRegion_at_dst i s <;> omega

end Sys2Proof.Machine
end

section
/-!
SUPPORT. Command words: a word is its six fields (`30_encoding.md` R81), and the mask of an opcode
row covers OP, ORDER, the reserved bits and each field the command does not take (R95, R97). The
decoder's test by mask and match is thereby a test of fields.
-/

namespace Sys2Proof

/-! ## Agreement under a mask -/

/-- The mask of the `len` bits of a command word from bit `start` on. -/
def fieldMask (start len : Nat) : Reg32 := (BitVec.allOnes len).setWidth 32 <<< start

theorem getLsbD_fieldMask (start len k : Nat) :
    (fieldMask start len).getLsbD k = decide (start ≤ k ∧ k < start + len ∧ k < 32) := by
  rw [Bool.eq_iff_iff]
  simp only [fieldMask, BitVec.getLsbD_shiftLeft, BitVec.getLsbD_setWidth, BitVec.getLsbD_allOnes,
    Bool.and_eq_true, Bool.not_eq_true', decide_eq_true_eq, decide_eq_false_iff_not]
  omega

/-- Two words agree under a mask exactly when each bit that the mask holds is the same in both. -/
theorem and_eq_and_iff_getLsbD (c c' m : Reg32) :
    c &&& m = c' &&& m ↔ ∀ k, m.getLsbD k = true → c.getLsbD k = c'.getLsbD k := by
  constructor
  · intro h k hk
    simpa [hk] using congrArg (·.getLsbD k) h
  · intro h
    refine BitVec.eq_of_getLsbD_eq fun k _ => ?_
    cases hk : m.getLsbD k with
    | false => simp [hk]
    | true => simp [hk, h k hk]

/-- Agreement under a union of masks is agreement under each. -/
theorem and_or_eq_iff (c c' a b : Reg32) :
    c &&& (a ||| b) = c' &&& (a ||| b) ↔ c &&& a = c' &&& a ∧ c &&& b = c' &&& b := by
  simp only [and_eq_and_iff_getLsbD, BitVec.getLsbD_or, Bool.or_eq_true, or_imp, forall_and]

/-- Agreement under the mask of a field is equality of the field. -/
theorem and_fieldMask_eq_iff (c c' : Reg32) (start len : Nat) :
    c &&& fieldMask start len = c' &&& fieldMask start len ↔
      c.extractLsb' start len = c'.extractLsb' start len := by
  simp only [and_eq_and_iff_getLsbD, getLsbD_fieldMask, decide_eq_true_eq]
  constructor
  · intro h
    refine BitVec.eq_of_getLsbD_eq fun j hj => ?_
    by_cases hin : start + j < 32
    · simpa [hj] using h (start + j) ⟨by omega, by omega, hin⟩
    · simp [BitVec.getLsbD_of_ge, not_lt.1 hin]
  · rintro h k ⟨hle, hlt, -⟩
    have hbit := congrArg (·.getLsbD (k - start)) h
    simpa [show k - start < len by omega, Nat.add_sub_cancel' hle] using hbit

/-! ## A word is its fields -/

/-- A word with the same six fields is the same word: together the fields cover its 32 bits. -/
theorem word_eq_of_fields {c c' : Reg32} (hop : (CmdFields.ofWord c).op = (CmdFields.ofWord c').op)
    (hwsel : (CmdFields.ofWord c).wsel = (CmdFields.ofWord c').wsel)
    (hstrict : (CmdFields.ofWord c).strict = (CmdFields.ofWord c').strict)
    (hfmt : (CmdFields.ofWord c).fmt = (CmdFields.ofWord c').fmt)
    (horder : (CmdFields.ofWord c).order = (CmdFields.ofWord c').order)
    (hres : (CmdFields.ofWord c).reserved = (CmdFields.ofWord c').reserved) : c = c' := by
  have cover : fieldMask 0 4 ||| fieldMask 4 2 ||| fieldMask 6 1 ||| fieldMask 7 1 |||
      fieldMask 8 1 ||| fieldMask 9 23 = BitVec.allOnes 32 := by decide
  rw [← BitVec.and_allOnes (x := c), ← BitVec.and_allOnes (x := c'), ← cover]
  simp only [and_or_eq_iff, and_fieldMask_eq_iff]
  exact ⟨⟨⟨⟨⟨hop, hwsel⟩, hstrict⟩, hfmt⟩, horder⟩, hres⟩

/-! ## The decoder's reading of the fields -/

theorem opOf_eq (c : Reg32) : opOf c = (CmdFields.ofWord c).op.toNat := by
  simp [opOf, CmdFields.ofWord, BitVec.extractLsb'_toNat]

theorem wselOf_eq (c : Reg32) : wselOf c = (CmdFields.ofWord c).wsel.toNat := by
  simp [wselOf, CmdFields.ofWord, BitVec.extractLsb'_toNat, Nat.shiftRight_eq_div_pow]

theorem strictOf_eq (c : Reg32) : strictOf c = (CmdFields.ofWord c).strict.getLsbD 0 := by
  simp [strictOf, CmdFields.ofWord]

theorem fmtOf_eq (c : Reg32) :
    fmtOf c = if (CmdFields.ofWord c).fmt.getLsbD 0 then .store else .lane := by
  simp [fmtOf, CmdFields.ofWord]

theorem wordsel_injective : ∀ {a b : BitVec 2}, wordsel a.toNat = wordsel b.toNat → a = b := by
  decide

theorem getLsbD_zero_injective : ∀ {a b : BitVec 1}, a.getLsbD 0 = b.getLsbD 0 → a = b := by
  decide

theorem formatOfBit_injective : ∀ {a b : BitVec 1},
    (if a.getLsbD 0 then MemFormat.store else .lane) = (if b.getLsbD 0 then .store else .lane) →
      a = b := by
  decide

/-! ## The mask of a row -/

/-- The bits that R95 fixes: OP, ORDER, the reserved bits, and each field the command does not
take. -/
def CmdFields.fixedMask (f : CmdFields) : Reg32 :=
  fieldMask 0 4 ||| fieldMask 8 1 ||| fieldMask 9 23 |||
    (if f.takesWsel then 0 else fieldMask 4 2) |||
    (if f.takesStrict then 0 else fieldMask 6 1) ||| (if f.takesFmt then 0 else fieldMask 7 1)

/-- The opcode table's masks (R97) are the bits that R95 fixes. -/
theorem maskOf_op (f : CmdFields) :
    maskOf f.op.toNat = if f.opKnown then some f.fixedMask else none := by
  unfold CmdFields.fixedMask CmdFields.opKnown CmdFields.takesWsel CmdFields.takesStrict
    CmdFields.takesFmt
  generalize f.op = op
  revert op
  decide

theorem and_unless_eq_iff (t : Bool) (c c' m : Reg32) :
    c &&& (if t then 0 else m) = c' &&& (if t then 0 else m) ↔ t = true ∨ c &&& m = c' &&& m := by
  cases t <;> simp

/-- Two words agree on the fixed bits exactly when they have the same fixed fields. -/
theorem and_fixedMask_eq_iff (f : CmdFields) (c c' : Reg32) :
    c &&& f.fixedMask = c' &&& f.fixedMask ↔
      (CmdFields.ofWord c).op = (CmdFields.ofWord c').op ∧
      (CmdFields.ofWord c).order = (CmdFields.ofWord c').order ∧
      (CmdFields.ofWord c).reserved = (CmdFields.ofWord c').reserved ∧
      (f.takesWsel = true ∨ (CmdFields.ofWord c).wsel = (CmdFields.ofWord c').wsel) ∧
      (f.takesStrict = true ∨ (CmdFields.ofWord c).strict = (CmdFields.ofWord c').strict) ∧
      (f.takesFmt = true ∨ (CmdFields.ofWord c).fmt = (CmdFields.ofWord c').fmt) := by
  simp only [CmdFields.fixedMask, and_or_eq_iff, and_unless_eq_iff, and_fieldMask_eq_iff, and_assoc,
    CmdFields.ofWord]

/-- The `match` column (R97) has the OP and nothing else. -/
theorem ofWord_matchOf (op : BitVec 4) :
    CmdFields.ofWord (matchOf op.toNat) = ⟨op, 0, 0, 0, 0, 0⟩ := by
  revert op
  decide

theorem matchOf_and_fixedMask (f : CmdFields) (h : f.opKnown = true) :
    matchOf f.op.toNat &&& f.fixedMask = matchOf f.op.toNat := by
  unfold CmdFields.opKnown at h
  unfold CmdFields.fixedMask CmdFields.takesWsel CmdFields.takesStrict CmdFields.takesFmt
  generalize f.op = op at *
  revert op
  decide

theorem wellFormed_iff (f : CmdFields) :
    f.WellFormed = true ↔
      f.opKnown = true ∧ f.order = 0 ∧ f.reserved = 0 ∧ (f.takesWsel = true ∨ f.wsel = 0) ∧
        (f.takesStrict = true ∨ f.strict = 0) ∧ (f.takesFmt = true ∨ f.fmt = 0) := by
  simp only [CmdFields.WellFormed, CmdFields.orderLegal, CmdFields.reservedClear,
    CmdFields.unusedClear, Bool.and_eq_true, Bool.or_eq_true, beq_iff_eq, and_assoc]

/-- The two formulations of R95 agree on a word with an OP of the table. -/
theorem masked_iff_wellFormed {c : Reg32} (h : (CmdFields.ofWord c).opKnown = true) :
    c &&& (CmdFields.ofWord c).fixedMask = matchOf (opOf c) ↔
      (CmdFields.ofWord c).WellFormed = true := by
  rw [opOf_eq, ← matchOf_and_fixedMask _ h, and_fixedMask_eq_iff, ofWord_matchOf, wellFormed_iff]
  simp only [h, true_and]

theorem maskOf_opOf (c : Reg32) :
    maskOf (opOf c) =
      if (CmdFields.ofWord c).opKnown then some (CmdFields.ofWord c).fixedMask else none := by
  rw [opOf_eq, maskOf_op]

theorem opKnown_iff (c : Reg32) : (CmdFields.ofWord c).opKnown = true ↔ opOf c < 8 := by
  rw [opOf_eq, CmdFields.opKnown, decide_eq_true_iff]

theorem opKnown_of_wellFormed {f : CmdFields} (h : f.WellFormed = true) : f.opKnown = true :=
  ((wellFormed_iff f).1 h).1

/-- A field that the OP does not take is 0 in a legal word. -/
theorem unused_fields_zero {c : Reg32} (h : (CmdFields.ofWord c).WellFormed = true) :
    (opOf c < 3 → (CmdFields.ofWord c).wsel = 0) ∧
      (opOf c ≠ 5 ∧ opOf c ≠ 7 → (CmdFields.ofWord c).strict = 0) ∧
      (opOf c < 4 → (CmdFields.ofWord c).fmt = 0) := by
  obtain ⟨_, _, _, hwsel, hstrict, hfmt⟩ := (wellFormed_iff _).1 h
  simp only [CmdFields.takesWsel, CmdFields.takesStrict, CmdFields.takesFmt, decide_eq_true_eq,
    Bool.or_eq_true, beq_iff_eq, ← BitVec.toNat_inj, ← opOf_eq] at hwsel hstrict hfmt ⊢
  exact ⟨fun hop => hwsel.resolve_left (by omega), fun hop => hstrict.resolve_left (not_or.2 hop),
    fun hop => hfmt.resolve_left (by omega)⟩

/-- A word that is illegal by its fields is illegal by mask and match, and conversely. -/
theorem wellFormed_eq_false_iff_masked (c : Reg32) :
    (CmdFields.ofWord c).WellFormed = false ↔
      8 ≤ opOf c ∨ ∃ m, maskOf (opOf c) = some m ∧ c &&& m ≠ matchOf (opOf c) := by
  rw [maskOf_opOf, ← not_lt, ← opKnown_iff, ← Bool.not_eq_true]
  by_cases h : (CmdFields.ofWord c).opKnown = true
  · simp [h, masked_iff_wellFormed h]
  · simp [h, mt opKnown_of_wellFormed h]

/-! ## What the decoder answers -/

theorem decode_of_wellFormed {c : Reg32} (h : (CmdFields.ofWord c).WellFormed = true) :
    decode c = .ok (build (opOf c) (wordsel (wselOf c)) (strictOf c) (fmtOf c)) := by
  have hop := opKnown_of_wellFormed h
  have hmask : maskOf (opOf c) = some (CmdFields.ofWord c).fixedMask := by
    rw [maskOf_opOf, if_pos hop]
  simp only [decode, hmask, (masked_iff_wellFormed hop).2 h, if_true]

theorem decode_of_not_wellFormed {c : Reg32} (h : (CmdFields.ofWord c).WellFormed = false) :
    ∃ e, decode c = .error e := by
  obtain hop | ⟨m, hmask, hne⟩ := (wellFormed_eq_false_iff_masked c).1 h
  · have hmask : maskOf (opOf c) = none := by
      rw [maskOf_opOf, if_neg (mt (opKnown_iff c).1 (not_lt.2 hop))]
    exact ⟨.reservedOp, by simp only [decode, hmask]⟩
  · exact ⟨blame c, by simp only [decode, hmask, if_neg hne]⟩

theorem decode_error_iff_not_wellFormed (c : Reg32) :
    (∃ e, decode c = .error e) ↔ (CmdFields.ofWord c).WellFormed = false := by
  refine ⟨fun ⟨e, he⟩ => Bool.eq_false_iff.2 fun h => ?_, decode_of_not_wellFormed⟩
  cases he.symm.trans (decode_of_wellFormed h)

/-- A word that decodes is legal, and its command is built from its fields. -/
theorem decode_ok {c : Reg32} {i : Instr} (h : decode c = .ok i) :
    (CmdFields.ofWord c).WellFormed = true ∧
      build (opOf c) (wordsel (wselOf c)) (strictOf c) (fmtOf c) = i := by
  cases hwf : (CmdFields.ofWord c).WellFormed with
  | true => exact ⟨rfl, Except.ok.inj ((decode_of_wellFormed hwf).symm.trans h)⟩
  | false =>
    obtain ⟨e, he⟩ := decode_of_not_wellFormed hwf
    cases he.symm.trans h

/-! ## A command determines its word -/

theorem opNumber_build {op : Nat} (h : op < 8) (w : WordWidth) (strict : Bool) (fmt : MemFormat) :
    opNumber (build op w strict fmt) = op := by
  interval_cases op <;> rfl

/-- A command has the value of each field that its OP takes. -/
theorem build_inj {op : Nat} {w w' : WordWidth} {strict strict' : Bool} {fmt fmt' : MemFormat}
    (h : build op w strict fmt = build op w' strict' fmt') (hop : op < 8) :
    (3 ≤ op → w = w') ∧ (op = 5 ∨ op = 7 → strict = strict') ∧ (4 ≤ op → fmt = fmt') := by
  unfold build at h
  interval_cases op <;> simp_all

/-- Of two legal words for one command every field is the same: a field that is taken is the
command's, any other is 0. -/
theorem decode_injective {c c' : Reg32} {i : Instr} (h : decode c = .ok i)
    (h' : decode c' = .ok i) : c = c' := by
  obtain ⟨hwf, hi⟩ := decode_ok h
  obtain ⟨hwf', hi'⟩ := decode_ok h'
  obtain ⟨hknown, horder, hres, _⟩ := (wellFormed_iff _).1 hwf
  obtain ⟨hknown', horder', hres', _⟩ := (wellFormed_iff _).1 hwf'
  obtain ⟨zwsel, zstrict, zfmt⟩ := unused_fields_zero hwf
  obtain ⟨zwsel', zstrict', zfmt'⟩ := unused_fields_zero hwf'
  rw [opKnown_iff] at hknown hknown'
  have hop : opOf c' = opOf c := by
    rw [← opNumber_build hknown', hi', ← hi, opNumber_build hknown]
  rw [hop] at hi' zwsel' zstrict' zfmt'
  obtain ⟨iwsel, istrict, ifmt⟩ := build_inj (hi.trans hi'.symm) hknown
  apply word_eq_of_fields
  · rw [← BitVec.toNat_inj, ← opOf_eq, ← opOf_eq, hop]
  · obtain hlt | hle := Nat.lt_or_ge (opOf c) 3
    · rw [zwsel hlt, zwsel' hlt]
    · exact wordsel_injective (by simpa only [wselOf_eq] using iwsel hle)
  · by_cases htakes : opOf c = 5 ∨ opOf c = 7
    · exact getLsbD_zero_injective (by simpa only [strictOf_eq] using istrict htakes)
    · rw [zstrict (not_or.1 htakes), zstrict' (not_or.1 htakes)]
  · obtain hlt | hle := Nat.lt_or_ge (opOf c) 4
    · rw [zfmt hlt, zfmt' hlt]
    · exact formatOfBit_injective (by simpa only [fmtOf_eq] using ifmt hle)
  · rw [horder, horder']
  · rw [hres, hres']

theorem decode_encode (i : Instr) : decode (encode i) = .ok i := by
  cases i with
  | nop | lenc | ldec => rfl
  | rbytes w => cases w <;> rfl
  | pack w fmt | encode w fmt => cases w <;> cases fmt <;> rfl
  | unpack w strict fmt | decode w strict fmt => cases w <;> cases strict <;> cases fmt <;> rfl

/-! ## The engine's step on an illegal word -/

theorem engineStep_of_illegal {s : Machine.State} (hbusy : s.busy = true)
    (hline : s.resetLine = false) {e : Illegal} (he : decode s.cmd = .error e) :
    Machine.engineStep s = .next (s.raise .illegalCommand) := by
  simp only [Machine.engineStep, hbusy, hline, he, Bool.not_false, Bool.and_self, if_true]

/-! ## The statements -/

/-- Settles O1: a command's word decodes to it, and a command determines its word. -/
theorem decodeExactlyInvertsEncode : Obligations.DecodeExactlyInvertsEncode :=
  fun _ i => ⟨fun h => decode_injective h (decode_encode i), fun h => h ▸ decode_encode i⟩

/-- Settles O2: the decoder's test is R95 in its mask form and in its field form, and the engine's
step is the one shared error operation. -/
theorem illegalWordsRaiseIllegalCommand : Obligations.IllegalWordsRaiseIllegalCommand := by
  refine ⟨decode_error_iff_not_wellFormed, fun c => ?_, fun s hbusy hline hwf => ?_⟩
  · rw [decode_error_iff_not_wellFormed, wellFormed_eq_false_iff_masked]
  · obtain ⟨e, he⟩ := decode_of_not_wellFormed hwf
    exact ⟨_, engineStep_of_illegal hbusy hline he, ⟨rfl, rfl, rfl, rfl⟩,
      Machine.finish_sameSurroundings (.error .illegalCommand), rfl, rfl, rfl, rfl⟩

/-- Settles O4: each written word is the word of the command the spec names. -/
theorem writtenWordsDecode : Obligations.WrittenWordsDecode := by
  unfold Obligations.WrittenWordsDecode
  simp only [decodeExactlyInvertsEncode _ _]
  decide

end Sys2Proof
end

section
/-!
SUPPORT. Reading a prefix (`40_length_codec.md` R121): its length is told by the first byte, its
value by the bytes it takes; from these, when a read fails and how short a prefix can be.
-/

namespace Sys2Proof.Machine

/-! ## The bytes a prefix takes -/

/-- The value that the bytes of a prefix stand for, whole or not: in class 3 the bytes after the
first, else all of them without the two class bits (`30_encoding.md` R88). -/
def prefixValue (b0 : Byte) (rest : List Byte) : Nat :=
  if b0.toNat % 4 = 3 then le (rest.take (prefixBytesFrom b0 - 1))
  else le ((b0 :: rest).take (prefixBytesFrom b0)) / 4

/-- The size class of a first byte and the prefix length it tells. -/
theorem prefixBytesFrom_cases (b0 : Byte) :
    (b0.toNat % 4 = 0 ∧ prefixBytesFrom b0 = 1) ∨ (b0.toNat % 4 = 1 ∧ prefixBytesFrom b0 = 2) ∨
      (b0.toNat % 4 = 2 ∧ prefixBytesFrom b0 = 4) ∨
      (b0.toNat % 4 = 3 ∧ prefixBytesFrom b0 = 1 + (b0.toNat / 4 + 4)) := by
  have hlt := Nat.mod_lt b0.toNat (show 4 > 0 by decide)
  unfold prefixBytesFrom
  interval_cases b0.toNat % 4 <;> simp

/-- Reading a prefix: too few bytes, a class-3 value that does not fit, or the value. -/
theorem lenDecode_cons (b0 : Byte) (rest : List Byte) :
    lenDecode (b0 :: rest) =
      if rest.length + 1 < prefixBytesFrom b0 then .error .truncatedLengthPrefix
      else if b0.toNat % 4 = 3 ∧ 2 ^ 32 ≤ prefixValue b0 rest then .error .lengthOverflow
      else .ok (prefixValue b0 rest, prefixBytesFrom b0) := by
  obtain ⟨hc, hp⟩ | ⟨hc, hp⟩ | ⟨hc, hp⟩ | ⟨hc, hp⟩ := prefixBytesFrom_cases b0
  · simp [lenDecode, prefixValue, hc, hp, le]
  all_goals simp [lenDecode, prefixValue, hc, hp]

theorem prefixBytesFrom_bounds (b0 : Byte) : 1 ≤ prefixBytesFrom b0 ∧ prefixBytesFrom b0 ≤ 68 := by
  have := b0.isLt
  obtain ⟨_, hp⟩ | ⟨_, hp⟩ | ⟨_, hp⟩ | ⟨_, hp⟩ := prefixBytesFrom_cases b0 <;> omega

theorem prefixValue_of_class_three {b0 : Byte} (rest : List Byte) (h : b0.toNat % 4 = 3) :
    prefixValue b0 rest = le (rest.take (prefixBytesFrom b0 - 1)) := if_pos h

/-- The value of a prefix outside class 3 has two bits less than its bytes. -/
theorem prefixValue_lt {b0 : Byte} (rest : List Byte) (h : b0.toNat % 4 ≠ 3) :
    4 * prefixValue b0 rest < 256 ^ prefixBytesFrom b0 := by
  have hle : le ((b0 :: rest).take (prefixBytesFrom b0)) < 256 ^ prefixBytesFrom b0 :=
    (le_lt _).trans_le (Nat.pow_le_pow_right (by decide) (List.length_take_le _ _))
  rw [prefixValue, if_neg h]
  omega

/-- A prefix that is read takes the bytes its first byte tells and stands for their value. -/
theorem lenDecode_cons_ok {b0 : Byte} {rest : List Byte} {n p : Nat}
    (h : lenDecode (b0 :: rest) = .ok (n, p)) :
    n = prefixValue b0 rest ∧ p = prefixBytesFrom b0 := by
  rw [lenDecode_cons] at h
  split at h
  · cases h
  · split at h <;> cases h
    exact ⟨rfl, rfl⟩

/-! ## The shortest prefix -/

/-- A prefix that is read is long enough for the size class of its value (`30_encoding.md` R88). -/
theorem sizeClass_of_lenDecode_ok {s : List Byte} {n p : Nat} (h : lenDecode s = .ok (n, p)) :
    (n < 2 ^ 6 ∧ p = 1) ∨ (n < 2 ^ 14 ∧ p = 2) ∨ (n < 2 ^ 30 ∧ p = 4) ∨ 5 ≤ p := by
  cases s with
  | nil => cases h
  | cons b0 rest =>
    obtain ⟨rfl, rfl⟩ := lenDecode_cons_ok h
    have hlt := prefixValue_lt (b0 := b0) rest
    obtain ⟨_, hp⟩ | ⟨_, hp⟩ | ⟨_, hp⟩ | ⟨_, hp⟩ := prefixBytesFrom_cases b0 <;>
      rw [hp] at hlt ⊢ <;> omega

/-! ## The statements -/

/-- Settles O7: a prefix of `p` bytes holds only values of the size classes up to `p`. -/
theorem prefixIsMinimal : Obligations.PrefixIsMinimal := by
  refine ⟨fun s n p h => ?_, by decide, by decide⟩
  have hclass := sizeClass_of_lenDecode_ok h
  rw [lenEncode_length (lenDecode_ok_lt h)]
  split_ifs <;> omega

/-- Settles O8, by the three answers a read can give. -/
theorem firstByteTellsPrefixLength : Obligations.FirstByteTellsPrefixLength := by
  intro b0 rest
  have hover : (b0.toNat % 4 = 3 ∧ 2 ^ 32 ≤ prefixValue b0 rest) ↔
      b0.toNat % 4 = 3 ∧ 2 ^ 32 ≤ le (rest.take (prefixBytesFrom b0 - 1)) :=
    and_congr_right fun hclass => by rw [prefixValue_of_class_three rest hclass]
  refine ⟨prefixBytesFrom_bounds b0, ?_, ?_, ?_, fun n p h =>
    ⟨(lenDecode_cons_ok h).2, lenDecode_ok_lt h⟩⟩
  · rw [lenDecode_cons]
    split_ifs with htrunc <;> simp [htrunc]
  · rw [and_left_comm, ← hover, lenDecode_cons, ← not_lt (b := prefixBytesFrom b0)]
    split_ifs with htrunc hlarge
    · exact iff_of_false nofun fun h => h.1 htrunc
    · exact iff_of_true rfl ⟨htrunc, hlarge⟩
    · exact iff_of_false nofun fun h => hlarge h.2
  · rw [lenDecode_cons]
    split_ifs <;> simp

end Sys2Proof.Machine
end

section
/-!
SUPPORT. Where a logical bit sits in a body (`30_encoding.md` R89 to R91): a bit of a little-endian
value is a bit of one of its bytes, and the last byte of a word holds the word's first indices.
-/

namespace Sys2Proof.Machine

/-- Bit `k` of a little-endian value is bit `k % 8` of byte `k / 8`. -/
theorem testBit_le (s : List Byte) (k : Nat) :
    (le s).testBit k = (s.getD (k / 8) 0).getLsbD (k % 8) := by
  induction s generalizing k with
  | nil => simp [le]
  | cons b s ih =>
    rw [le, Nat.add_comm, show 256 = 2 ^ 8 by rfl, Nat.testBit_two_pow_mul_add _ b.isLt]
    split
    · rw [Nat.div_eq_of_lt ‹_›, Nat.mod_eq_of_lt ‹_›]
      rfl
    · obtain ⟨j, rfl⟩ : ∃ j, k = j + 8 := ⟨k - 8, by omega⟩
      rw [Nat.add_sub_cancel, ih, Nat.add_div_right _ (by decide), Nat.add_mod_right,
        List.getD_cons_succ]

theorem wordSlice_getD (body : List Byte) (w : WordWidth) (k : Nat) {j : Nat} (h : j < wbytes w) :
    (wordSlice body w k).getD j 0 = body.getD (k * wbytes w + j) 0 := by
  simp [wordSlice, List.getD, h]

/-- Index `i` is bit `W - 1 - i % W` of its word (R89), so its byte and bit there are those of that
position. -/
theorem position_in_word (i : Nat) (w : WordWidth) :
    byteIndex i w = i / wbits w * wbytes w + (wbits w - 1 - i % wbits w) / 8 ∧
      bitInByte i w = (wbits w - 1 - i % wbits w) % 8 ∧
      (wbits w - 1 - i % wbits w) / 8 < wbytes w := by
  have hlt := Nat.mod_lt i (wbits_pos w)
  rw [byteIndex, bitInByte]
  have heq := wbits_eq w
  have := wbytes_pos w
  refine ⟨?_, ?_, ?_⟩ <;> omega

theorem getBit_eq_testBit (body : List Byte) (w : WordWidth) (i : Nat) :
    getBit body w i =
      (le (wordSlice body w (i / wbits w))).testBit (wbits w - 1 - i % wbits w) := by
  obtain ⟨hbyte, hbit, hlt⟩ := position_in_word i w
  rw [testBit_le, wordSlice_getD _ _ _ hlt, getBit, hbyte, hbit]

/-- Settles O12, from the bits of a little-endian value; the rest is the two index functions. -/
theorem bitPlacement : Obligations.BitPlacement := by
  refine ⟨fun w body i => getBit_eq_testBit body w i, fun i => ?_, fun w k _ => ?_⟩
  · have h := position_in_word i .w8
    simp only [wbits, wbytes] at h
    omega
  · have := wbytes_pos w
    rw [byteIndex, bitInByte, Nat.mul_mod_left, Nat.mul_div_cancel _ (wbits_pos w)]
    omega

end Sys2Proof.Machine
end

section
/-!
SUPPORT. The prefix the encoder writes (`40_length_codec.md` R120) against the reader: the bytes of
each size class, that a written prefix is whole and stands for its value, and that a reader looks at
no byte past a prefix, so at most at 68.
-/

namespace Sys2Proof.Machine

variable {n : Nat}

/-! ## The bytes of a written prefix -/

theorem lenEncode_class_zero (h : n < 2 ^ 6) : lenEncode n = leBytes (n * 4) 1 := if_pos h

theorem lenEncode_class_one (h : 2 ^ 6 ≤ n ∧ n < 2 ^ 14) :
    lenEncode n = leBytes (n * 4 + 1) 2 := by
  rw [lenEncode, if_neg (by omega), if_pos h.2]

theorem lenEncode_class_two (h : 2 ^ 14 ≤ n ∧ n < 2 ^ 30) :
    lenEncode n = leBytes (n * 4 + 2) 4 := by
  rw [lenEncode, if_neg (by omega), if_neg (by omega), if_pos h.2]

theorem lenEncode_class_three (h : 2 ^ 30 ≤ n ∧ n < 2 ^ 32) :
    lenEncode n = 0x03 :: leBytes n 4 := by
  rw [lenEncode, if_neg (by omega), if_neg (by omega), if_neg (by omega), classThreeBytes_eq h.2]
  rfl

theorem le_leBytes_of_lt {v k : Nat} (h : v < 256 ^ k) : le (leBytes v k) = v := by
  rw [le_leBytes, Nat.mod_eq_of_lt h]

/-- Settles O6, from the bytes of each class, none of which cuts its value. -/
theorem prefixSizeClasses : Obligations.PrefixSizeClasses := by
  refine fun n => ⟨fun h => ?_, fun h => ?_, fun h => ?_, fun h => ?_⟩
  · rw [lenEncode_class_zero h]
    exact ⟨leBytes_length .., le_leBytes_of_lt (by omega)⟩
  · rw [lenEncode_class_one h]
    exact ⟨leBytes_length .., le_leBytes_of_lt (by omega)⟩
  · rw [lenEncode_class_two h]
    exact ⟨leBytes_length .., le_leBytes_of_lt (by omega)⟩
  · rw [lenEncode_class_three h]
    exact ⟨by simp, rfl, le_leBytes_of_lt (by omega)⟩

/-! ## A written prefix is whole and stands for its value -/

/-- A byte sequence of the length and the value of a class below 3 is a whole prefix. -/
theorem whole_of_length_of_le {b0 : Byte} {rest : List Byte} {c : Nat}
    (hlen : (c = 0 ∧ rest.length = 0) ∨ (c = 1 ∧ rest.length = 1) ∨ (c = 2 ∧ rest.length = 3))
    (hle : le (b0 :: rest) = n * 4 + c) :
    rest.length + 1 = prefixBytesFrom b0 ∧ prefixValue b0 rest = n := by
  have hclass : b0.toNat % 4 = c := by
    rw [le] at hle
    omega
  have hwhole : rest.length + 1 = prefixBytesFrom b0 := by
    have := prefixBytesFrom_cases b0
    omega
  refine ⟨hwhole, ?_⟩
  rw [prefixValue, if_neg (by omega), ← hwhole, ← List.length_cons, List.take_length, hle]
  omega

/-- The encoder writes as many bytes as its first byte tells, and they stand for the value. -/
theorem lenEncode_whole {b0 : Byte} {rest : List Byte} (hn : n < 2 ^ 32)
    (h : lenEncode n = b0 :: rest) :
    rest.length + 1 = prefixBytesFrom b0 ∧ prefixValue b0 rest = n := by
  obtain ⟨h0, h1, h2, h3⟩ := prefixSizeClasses n
  rw [h, List.length_cons] at h0 h1 h2
  by_cases hc0 : n < 2 ^ 6
  · obtain ⟨hlen, hle⟩ := h0 hc0
    exact whole_of_length_of_le (.inl ⟨rfl, by omega⟩) hle
  by_cases hc1 : n < 2 ^ 14
  · obtain ⟨hlen, hle⟩ := h1 ⟨by omega, hc1⟩
    exact whole_of_length_of_le (.inr (.inl ⟨rfl, by omega⟩)) hle
  by_cases hc2 : n < 2 ^ 30
  · obtain ⟨hlen, hle⟩ := h2 ⟨by omega, hc2⟩
    exact whole_of_length_of_le (.inr (.inr ⟨rfl, by omega⟩)) hle
  · have hbig : 2 ^ 30 ≤ n ∧ n < 2 ^ 32 := ⟨by omega, hn⟩
    obtain ⟨rfl, rfl⟩ := List.cons.inj ((lenEncode_class_three hbig).symm.trans h)
    refine ⟨rfl, ?_⟩
    rw [prefixValue_of_class_three _ rfl, show prefixBytesFrom 0x03 - 1 = 4 by rfl,
      List.take_of_length_le (leBytes_length n 4).le, le_leBytes_of_lt (by omega)]

theorem lenEncode_ne_nil (hn : n < 2 ^ 32) : lenEncode n ≠ [] := by
  rw [← List.length_pos_iff, lenEncode_length hn]
  split_ifs <;> decide

/-! ## A reader looks at no byte past the prefix -/

/-- The value depends on the bytes the prefix takes alone. -/
theorem prefixValue_congr {b0 : Byte} {r r' : List Byte}
    (h : r.take (prefixBytesFrom b0 - 1) = r'.take (prefixBytesFrom b0 - 1)) :
    prefixValue b0 r = prefixValue b0 r' := by
  have hcons (u : List Byte) :
      (b0 :: u).take (prefixBytesFrom b0) = b0 :: u.take (prefixBytesFrom b0 - 1) :=
    List.take_cons (prefixBytesFrom_bounds b0).1
  rw [prefixValue, prefixValue, hcons, hcons, h]

/-- LenDecode examines at most 68 bytes (`40_length_codec.md` R121). -/
theorem lenDecode_take_maxPrefixBytes (s : List Byte) :
    lenDecode (s.take maxPrefixBytes) = lenDecode s := by
  cases s with
  | nil => rfl
  | cons b0 rest =>
    have hmax := (prefixBytesFrom_bounds b0).2
    have hvalue : prefixValue b0 (rest.take 67) = prefixValue b0 rest :=
      prefixValue_congr (by rw [List.take_take, min_eq_left (by omega)])
    have htrunc : (rest.take 67).length + 1 < prefixBytesFrom b0 ↔
        rest.length + 1 < prefixBytesFrom b0 := by
      rw [List.length_take]
      omega
    rw [show maxPrefixBytes = 67 + 1 by rfl, List.take_succ_cons, lenDecode_cons, lenDecode_cons,
      hvalue, if_congr htrunc rfl rfl]

theorem lenDecode_ok_le_maxPrefixBytes {v : List Byte} {n p : Nat} (h : lenDecode v = .ok (n, p)) :
    p ≤ maxPrefixBytes := by
  cases v with
  | nil => cases h
  | cons b0 rest =>
    obtain ⟨_, rfl⟩ := lenDecode_cons_ok h
    exact (prefixBytesFrom_bounds b0).2

/-- Settles O5: a written prefix is whole, so what follows it is not read, and a proper part of it
has fewer bytes than its first byte tells. -/
theorem prefixRoundTrip : Obligations.PrefixRoundTrip := by
  intro n hn
  obtain ⟨b0, rest, hs⟩ := List.exists_cons_of_ne_nil (lenEncode_ne_nil hn)
  obtain ⟨hwhole, hvalue⟩ := lenEncode_whole hn hs
  rw [hs]
  refine ⟨fun t => ?_, fun k hk => ?_⟩
  · have hread : prefixValue b0 (rest ++ t) = n := by
      rw [prefixValue_congr (List.take_append_of_le_length (by omega)), hvalue]
    rw [List.cons_append, lenDecode_cons, hread, List.length_append, if_neg (by omega),
      if_neg (by omega), List.length_cons, hwhole]
  · cases k with
    | zero => rfl
    | succ k =>
      rw [List.length_cons] at hk
      rw [List.take_succ_cons, lenDecode_cons, List.length_take, if_pos (by omega)]

end Sys2Proof.Machine
end

section
/-!
SUPPORT. The commands of the length codec (`40_length_codec.md` R122, R125): what a command whose
plan succeeds leaves, and that the plans of LENC and LDEC succeed under their checks.
-/

namespace Sys2Proof.Machine

variable {s : State}

/-! ## A command whose plan succeeds -/

theorem exec_of_plan_ok {i : Instr} {f : Effect} (h : plan i s = .ok f) :
    exec i s = .next (s.finish (.ok f)) := by
  rw [exec_eq_finish, h]

theorem finish_ok_ended (f : Effect) : Ended (s.finish (.ok f)) 0 := ⟨rfl, rfl, rfl, rfl⟩

theorem finish_ok_stored (f : Effect) : Stored s (s.finish (.ok f)) f.addr f.bytes :=
  ⟨fun _ h => Memory.read_writeBytes_inside _ _ _ h,
    fun _ h => Memory.read_writeBytes_outside _ _ _ h⟩

/-! ## The plans of LENC and LDEC -/

theorem planLenc_of_inRange (h : s.inRange s.dst.toNat (lenEncode s.len.toNat).length) :
    planLenc s = .ok ⟨s.dst.toNat, lenEncode s.len.toNat, none,
      some (resWord (lenEncode s.len.toNat).length, 0)⟩ :=
  if_neg (not_not.2 h)

theorem Memory.take_readBytes (m : Memory) (a n k : Nat) :
    (Memory.readBytes m a n).take k = Memory.readBytes m a (min n k) := by
  rw [Memory.readBytes, ← List.map_take, List.take_range, min_comm, Memory.readBytes]

/-- What LDEC reads decodes as all the available bytes do. -/
theorem lenDecode_readBytes_min :
    lenDecode (Memory.readBytes s.mem s.src.toNat (min s.srcAvail.toNat maxPrefixBytes))
      = lenDecode (availableBytes s) := by
  rw [← Memory.take_readBytes, lenDecode_take_maxPrefixBytes, availableBytes]

theorem planLdec_of_lenDecode {n p : Nat} (hr : s.inRange s.src.toNat s.srcAvail.toNat)
    (h : lenDecode (availableBytes s) = .ok (n, p)) :
    planLdec s = .ok ⟨0, [], some (resWord n), some (resWord p, 0)⟩ := by
  rw [planLdec, if_neg (not_not.2 hr), lenDecode_readBytes_min, h]

/-! ## The statements -/

/-- Settles O21: in range, the plan of LENC is its prefix at DST. -/
theorem lencWritesPrefix : Obligations.LencWritesPrefix := by
  intro s hr
  have hsize : (lenEncode s.len.toNat).length < 2 ^ 32 := by
    rw [lenEncode_length s.len.isLt]
    split_ifs <;> decide
  exact ⟨_, exec_of_plan_ok (i := .lenc) (planLenc_of_inRange hr), finish_ok_ended _,
    finish_sameSurroundings _, rfl, resWord_toNat hsize, rfl, finish_ok_stored _⟩

/-- Settles O22: the plan of LDEC has the decoded value and names no output; both of its numbers fit
their registers. -/
theorem ldecReadsPrefix : Obligations.LdecReadsPrefix := by
  intro s n p hr hdec
  have hp : p < 2 ^ 32 := (lenDecode_ok_le_maxPrefixBytes hdec).trans_lt (by decide)
  exact ⟨_, exec_of_plan_ok (i := .ldec) (planLdec_of_lenDecode hr hdec), finish_ok_ended _,
    finish_sameSurroundings _, resWord_toNat (lenDecode_ok_lt hdec), resWord_toNat hp, rfl, rfl⟩

end Sys2Proof.Machine
end

section
/-!
SUPPORT. The footprint (`41_padding_calculator.md` R141 to R145): a quotient rounded up is the least
number of words that hold the bits; from this, the footprint's order, its blocks, its padding and its
bound, and with the bound what RBYTES reports.
-/

namespace Sys2Proof.Machine

variable {n b k : Nat}

/-! ## Division rounding up -/

/-- `k` words hold `n` bits exactly from `cdiv n b` on: `cdiv` is the `⌈/⌉` of Mathlib on `Nat`. -/
theorem cdiv_le_iff (hb : 0 < b) : cdiv n b ≤ k ↔ n ≤ b * k :=
  ceilDiv_le_iff_le_mul hb

theorem cdiv_mono (hb : 0 < b) {m : Nat} (h : m ≤ n) : cdiv m b ≤ cdiv n b :=
  (cdiv_le_iff hb).2 (h.trans ((cdiv_le_iff hb).1 le_rfl))

theorem cdiv_mul_self (hb : 0 < b) (k : Nat) : cdiv (k * b) b = k := by
  refine le_antisymm ((cdiv_le_iff hb).2 (Nat.mul_comm k b).le) ?_
  exact le_of_mul_le_mul_right (cdiv_mul_ge (k * b) hb) hb

/-- On the block of the `k`-th word the quotient is `k` (R143). -/
theorem cdiv_eq_of_block (hb : 0 < b) (hlt : (k - 1) * b < n) (hle : n ≤ k * b) :
    cdiv n b = k := by
  have hupper : cdiv n b ≤ k := (cdiv_le_iff hb).2 (Nat.mul_comm k b ▸ hle)
  have hlower : ¬ cdiv n b ≤ k - 1 := by
    rw [cdiv_le_iff hb, Nat.mul_comm]
    exact hlt.not_ge
  omega

theorem cdiv_mul_eq_iff (hb : 0 < b) : cdiv n b * b = n ↔ b ∣ n := by
  constructor
  · intro h
    exact Dvd.intro_left _ h
  · rintro ⟨k, rfl⟩
    rw [Nat.mul_comm b k, cdiv_mul_self hb]

/-! ## The footprint -/

variable {w : WordWidth}

theorem requiredBytes_mono {m : Nat} (h : m ≤ n) : requiredBytes m w ≤ requiredBytes n w :=
  Nat.mul_le_mul_right _ (cdiv_mono (wbits_pos w) h)

theorem requiredBytes_words (k : Nat) (w : WordWidth) :
    requiredBytes (k * wbits w) w = k * wbytes w := by
  rw [requiredBytes, wordCount, cdiv_mul_self (wbits_pos w)]

theorem requiredBytes_largest (w : WordWidth) : requiredBytes (2 ^ 32 - 1) w = 2 ^ 29 := by
  cases w <;> decide

theorem requiredBytes_le (h : n < 2 ^ 32) : requiredBytes n w ≤ 2 ^ 29 :=
  (requiredBytes_mono (Nat.le_sub_one_of_lt h)).trans_eq (requiredBytes_largest w)

theorem wordCount_le_requiredBytes (n : Nat) (w : WordWidth) : wordCount n w ≤ requiredBytes n w :=
  Nat.le_mul_of_pos_right _ (wbytes_pos w)

/-! ## The statements -/

/-- Settles O9: rounding up is monotone, exact at whole words, and constant on each block. -/
theorem footprintIsMonotone : Obligations.FootprintIsMonotone := by
  refine fun w => ⟨fun _ _ => requiredBytes_mono, fun k => requiredBytes_words k w, ?_⟩
  intro k n _ hlt hle
  rw [requiredBytes, wordCount, cdiv_eq_of_block (wbits_pos w) hlt hle, wbytes]

/-- Settles O10: `cdiv n W * W` is the multiple of `W` in `[n, n + W)`, which is `n` when `W`
divides `n`. -/
theorem paddingIsLessThanAWord : Obligations.PaddingIsLessThanAWord := by
  intro w n
  have hge := cdiv_mul_ge n (wbits_pos w)
  have hlt := cdiv_mul_lt n (wbits_pos w)
  refine ⟨hge, by omega, ?_, Nat.mul_mod_left _ _⟩
  rw [← Nat.dvd_iff_mod_eq_zero, ← cdiv_mul_eq_iff (wbits_pos w), Nat.sub_eq_zero_iff_le]
  exact ⟨fun h => h.antisymm hge, Eq.le⟩

/-- Settles O11: the empty sequence takes no word, and by monotonicity the largest LEN takes the most
bytes. -/
theorem footprintFitsARegister : Obligations.FootprintFitsARegister := fun w =>
  ⟨by simpa using requiredBytes_words 0 w, fun _ => requiredBytes_le, requiredBytes_largest w⟩

/-- Settles O23: the plan of RBYTES has no condition, and both of its numbers fit their registers. -/
theorem rbytesReportsFootprint : Obligations.RbytesReportsFootprint := by
  intro w s
  have hbytes : requiredBytes s.len.toNat w < 2 ^ 32 :=
    (requiredBytes_le s.len.isLt).trans_lt (by decide)
  have hwords : wordCount s.len.toNat w < 2 ^ 32 :=
    (wordCount_le_requiredBytes s.len.toNat w).trans_lt hbytes
  exact ⟨_, exec_of_plan_ok (i := .rbytes w) rfl, finish_ok_ended _, finish_sameSurroundings _, rfl,
    resWord_toNat hbytes, resWord_toNat hwords, rfl⟩

end Sys2Proof.Machine
end

section
/-!
SUPPORT. A body is its bits (`30_encoding.md` R89 to R91): every bit of every byte is the place of
exactly one logical index, so a body of a given length is settled by what its indices read, and
setting one index changes what that index alone reads.
-/

namespace Sys2Proof.Machine

variable {w : WordWidth}

/-! ## The index at a place -/

/-- The logical index whose place is bit `p` of byte `j`. -/
def indexAt (w : WordWidth) (j p : Nat) : Nat :=
  j / wbytes w * wbits w + (wbits w - 1 - (j % wbytes w * 8 + p))

theorem bitInByte_lt (i : Nat) (w : WordWidth) : bitInByte i w < 8 := by
  rw [bitInByte]
  omega

theorem byteIndex_div (i : Nat) (w : WordWidth) : byteIndex i w / wbytes w = i / wbits w := by
  obtain ⟨hbyte, _, hlt⟩ := position_in_word i w
  rw [hbyte, Nat.mul_comm, Nat.mul_add_div (wbytes_pos w), Nat.div_eq_of_lt hlt, Nat.add_zero]

theorem indexAt_place (i : Nat) (w : WordWidth) :
    indexAt w (byteIndex i w) (bitInByte i w) = i := by
  obtain ⟨hbyte, hbit, hlt⟩ := position_in_word i w
  have hmod : byteIndex i w % wbytes w = (wbits w - 1 - i % wbits w) / 8 := by
    rw [hbyte, Nat.mul_comm, Nat.mul_add_mod, Nat.mod_eq_of_lt hlt]
  have := Nat.mod_lt i (wbits_pos w)
  have := Nat.div_add_mod' i (wbits w)
  rw [indexAt, byteIndex_div, hmod, hbit]
  omega

theorem place_indexAt (w : WordWidth) (j : Nat) {p : Nat} (hp : p < 8) :
    byteIndex (indexAt w j p) w = j ∧ bitInByte (indexAt w j p) w = p := by
  have hlast := Nat.mod_lt j (wbytes_pos w)
  have heq := wbits_eq w
  have hlt : wbits w - 1 - (j % wbytes w * 8 + p) < wbits w := by omega
  have hdiv : indexAt w j p / wbits w = j / wbytes w := by
    rw [indexAt, Nat.mul_comm, Nat.mul_add_div (wbits_pos w), Nat.div_eq_of_lt hlt, Nat.add_zero]
  have hmod : indexAt w j p % wbits w = wbits w - 1 - (j % wbytes w * 8 + p) := by
    rw [indexAt, Nat.mul_comm, Nat.mul_add_mod, Nat.mod_eq_of_lt hlt]
  have := Nat.div_add_mod' j (wbytes w)
  obtain ⟨hbyte, hbit, _⟩ := position_in_word (indexAt w j p) w
  rw [hbyte, hbit, hdiv, hmod]
  omega

theorem place_inj {i j : Nat} :
    byteIndex i w = byteIndex j w ∧ bitInByte i w = bitInByte j w ↔ i = j := by
  refine ⟨fun ⟨hbyte, hbit⟩ => ?_, by rintro rfl; exact ⟨rfl, rfl⟩⟩
  rw [← indexAt_place i w, hbyte, hbit, indexAt_place]

/-! ## Reading a body -/

/-- Bodies of one length that read the same at every index are equal. -/
theorem body_ext {a b : List Byte} (hlen : a.length = b.length)
    (h : ∀ i, getBit a w i = getBit b w i) : a = b := by
  refine List.ext_getElem hlen fun j ha hb => BitVec.eq_of_getLsbD_eq fun p hp => ?_
  have hat := h (indexAt w j p)
  obtain ⟨hbyte, hbit⟩ := place_indexAt w j hp
  rwa [getBit, getBit, hbyte, hbit, List.getD_eq_getElem _ _ ha, List.getD_eq_getElem _ _ hb] at hat

/-- The indices of the words of a body are those whose byte is in it. -/
theorem byteIndex_lt_requiredBytes (n i : Nat) (w : WordWidth) :
    byteIndex i w < requiredBytes n w ↔ i < wordCount n w * wbits w := by
  rw [requiredBytes, ← Nat.div_lt_iff_lt_mul (wbytes_pos w), byteIndex_div,
    Nat.div_lt_iff_lt_mul (wbits_pos w)]

theorem getBit_beyond {body : List Byte} {i : Nat} (h : body.length ≤ byteIndex i w) :
    getBit body w i = false := by
  rw [getBit, List.getD_eq_default _ _ h]
  exact BitVec.getLsbD_zero

theorem paddingNonZero_iff (body : List Byte) (n : Nat) (w : WordWidth) :
    paddingNonZero body n w = true ↔
      ∃ i, n ≤ i ∧ i < wordCount n w * wbits w ∧ getBit body w i = true := by
  have hge := cdiv_mul_ge n (wbits_pos w)
  rw [← wordCount] at hge
  simp only [paddingNonZero, List.any_eq_true, List.mem_range'_1, Nat.add_sub_cancel' hge,
    and_assoc]

/-- A body of the right length is clean when every index from `n` on reads 0: an index past its
words has no byte. -/
theorem paddingNonZero_eq_false_iff {body : List Byte} {n : Nat}
    (hlen : body.length = requiredBytes n w) :
    paddingNonZero body n w = false ↔ ∀ i, n ≤ i → getBit body w i = false := by
  rw [← Bool.not_eq_true, paddingNonZero_iff]
  constructor
  · intro hclean i hi
    by_cases hw : i < wordCount n w * wbits w
    · exact Bool.eq_false_iff.2 fun hbit => hclean ⟨i, hi, hw, hbit⟩
    · exact getBit_beyond (by rwa [hlen, ← not_lt, byteIndex_lt_requiredBytes])
  · rintro hclear ⟨i, hi, _, hbit⟩
    exact Bool.false_ne_true ((hclear i hi).symm.trans hbit)

/-! ## Setting bits -/

theorem getBit_zeros (k i : Nat) (w : WordWidth) : getBit (List.replicate k 0) w i = false := by
  simp only [getBit, List.getD, List.getElem?_replicate]
  split <;> exact BitVec.getLsbD_zero

theorem getLsbD_one_shiftLeft {p : Nat} (hp : p < 8) (q : Nat) :
    ((1 : Byte) <<< p).getLsbD q = decide (p = q) := by
  rw [show (1 : Byte) <<< p = BitVec.twoPow 8 p from (BitVec.twoPow_eq 8 p).symm,
    BitVec.getLsbD_twoPow, decide_eq_true hp, Bool.true_and]

@[simp] theorem setBit_length (body : List Byte) (w : WordWidth) (i : Nat) :
    (setBit body w i).length = body.length := List.length_modify ..

/-- Setting an index that has a byte changes what that index alone reads. -/
theorem getBit_setBit {body : List Byte} {i : Nat} (h : byteIndex i w < body.length) (j : Nat) :
    getBit (setBit body w i) w j = (getBit body w j || decide (i = j)) := by
  by_cases hbyte : byteIndex i w = byteIndex j w
  · have hread : (setBit body w i).getD (byteIndex j w) 0 =
        body.getD (byteIndex j w) 0 ||| (1 : Byte) <<< bitInByte i w := by
      rw [← hbyte]
      simp [setBit, List.getD, h]
    have hplace : bitInByte i w = bitInByte j w ↔ i = j := by
      rw [← place_inj (w := w) (i := i), and_iff_right hbyte]
    rw [getBit, hread, BitVec.getLsbD_or, getLsbD_one_shiftLeft (bitInByte_lt i w), ← getBit,
      decide_eq_decide.2 hplace]
  · have hne : i ≠ j := fun hij => hbyte (hij ▸ rfl)
    have hread : (setBit body w i).getD (byteIndex j w) 0 = body.getD (byteIndex j w) 0 := by
      simp [setBit, List.getD, hbyte]
    rw [getBit, hread, ← getBit, decide_eq_false hne, Bool.or_false]

/-- Setting the true ones of some indices, each with a byte, changes what these alone read. -/
theorem getBit_foldl_setBit (bit : Nat → Bool) (l : List Nat) {body : List Byte}
    (h : ∀ i ∈ l, byteIndex i w < body.length) (j : Nat) :
    getBit (l.foldl (fun body i => if bit i then setBit body w i else body) body) w j =
      (getBit body w j || decide (j ∈ l) && bit j) := by
  induction l generalizing body with
  | nil => simp
  | cons i l ih =>
    obtain ⟨hi, hl⟩ := List.forall_mem_cons.1 h
    rw [List.foldl_cons]
    by_cases hbit : bit i = true
    · rw [if_pos hbit, ih (by simpa using hl), getBit_setBit hi]
      by_cases hij : i = j
      · subst hij; simp [hbit]
      · simp [hij, Ne.symm hij]
    · rw [if_neg hbit, ih hl]
      by_cases hij : i = j
      · subst hij; simp [hbit]
      · simp [Ne.symm hij]

theorem byteLevelBody_length (bit : Nat → Bool) (n : Nat) (w : WordWidth) :
    (byteLevelBody bit n w).length = requiredBytes n w := by
  refine List.foldlRecOn (motive := fun body : List Byte => body.length = requiredBytes n w) _ _
    List.length_replicate fun body hlen i _ => ?_
  split
  · rwa [setBit_length]
  · exact hlen

theorem getBit_byteLevelBody (bit : Nat → Bool) (n : Nat) (w : WordWidth) (i : Nat) :
    getBit (byteLevelBody bit n w) w i = (decide (i < n) && bit i) := by
  have hin : ∀ j ∈ List.range n,
      byteIndex j w < (List.replicate (requiredBytes n w) (0 : Byte)).length := by
    intro j hj
    rw [List.length_replicate, byteIndex_lt_requiredBytes]
    exact (List.mem_range.1 hj).trans_le (cdiv_mul_ge n (wbits_pos w))
  rw [byteLevelBody, getBit_foldl_setBit bit _ hin, getBit_zeros, Bool.false_or]
  simp only [List.mem_range]

end Sys2Proof.Machine
end

section
/-!
SUPPORT. The packed body (`42_bit_packer.md` R150 to R157): the bits of a word's value, hence what a
packed body reads at every index, which settles the body; the statements about packing and unpacking
are consequences.
-/

namespace Sys2Proof.Machine

variable {bit : Nat → Bool} {n k : Nat} {w : WordWidth}

/-! ## The value of a word -/

/-- The first `o` offsets fill the top `o` bits of the word. -/
theorem wordBits_top {o : Nat} (ho : o ≤ wbits w) :
    ∃ a < 2 ^ o, wordBits bit n w k o = 2 ^ (wbits w - o) * a := by
  induction o with
  | zero => exact ⟨0, by decide, rfl⟩
  | succ o ih =>
    obtain ⟨a, ha, heq⟩ := ih (by omega)
    rw [wordBits, heq, show wbits w - o = (wbits w - (o + 1)) + 1 by omega,
      show wbits w - 1 - o = wbits w - (o + 1) by omega]
    split
    · exact ⟨2 * a + 1, by omega, by ring⟩
    · exact ⟨2 * a, by omega, by ring⟩

/-- Offset `j` of the word stands at position `W - 1 - j` of its value (R89): adding the power of an
offset sets a bit below those set so far. -/
theorem testBit_wordBits {o j : Nat} (ho : o ≤ wbits w) (hj : j < wbits w) :
    (wordBits bit n w k o).testBit (wbits w - 1 - j) =
      (decide (j < o) && (decide (k * wbits w + j < n) && bit (k * wbits w + j))) := by
  induction o with
  | zero => simp [wordBits]
  | succ o ih =>
    have ih := ih (by omega)
    have hlast : j < o + 1 ↔ j < o ∨ j = o := by omega
    rw [wordBits]
    split
    · rename_i hset
      obtain ⟨a, _, htop⟩ := wordBits_top (bit := bit) (n := n) (k := k) (Nat.le_of_succ_le ho)
      have hlow : 2 ^ (wbits w - 1 - o) < 2 ^ (wbits w - o) :=
        Nat.pow_lt_pow_right (by decide) (by omega)
      have hpos : wbits w - 1 - o = wbits w - 1 - j ↔ j = o := by omega
      rw [htop, Nat.two_pow_add_eq_or_of_lt hlow, ← htop, Nat.testBit_or, ih, Nat.testBit_two_pow]
      by_cases hjo : j = o
      · subst hjo; simp [hset]
      · simp [hlast, hpos, hjo]
    · rename_i hclear
      rw [Nat.add_zero, ih]
      by_cases hjo : j = o
      · subst hjo; simpa using hclear
      · simp [hlast, hjo]

theorem wordValue_lt (bit : Nat → Bool) (n k : Nat) (w : WordWidth) :
    wordValue bit n w k < 2 ^ wbits w := by
  obtain ⟨a, ha, heq⟩ := wordBits_top (bit := bit) (n := n) (k := k) (le_refl (wbits w))
  rw [wordValue, heq]
  simpa using ha

theorem wordBits_eq_sum (o : Nat) :
    wordBits bit n w k o =
      ((List.range o).map fun j =>
        if k * wbits w + j < n ∧ bit (k * wbits w + j) = true then 2 ^ (wbits w - 1 - j)
        else 0).sum := by
  induction o with
  | zero => rfl
  | succ o ih => simp [wordBits, List.range_succ, ih]

/-! ## The words of a packed body -/

theorem wordSlice_packBody (hk : k < wordCount n w) :
    wordSlice (packBody bit n w) w k = leBytes (wordValue bit n w k) (wbytes w) := by
  obtain ⟨m, hm⟩ : ∃ m, wordCount n w = k + (m + 1) := ⟨wordCount n w - k - 1, by omega⟩
  rw [wordSlice, packBody, hm, List.range_add, List.flatMap_append, List.drop_left' (by simp),
    List.range_succ_eq_map, List.map_cons, List.flatMap_cons, List.take_left' (leBytes_length ..),
    Nat.add_zero]

theorem le_wordSlice_packBody (hk : k < wordCount n w) :
    le (wordSlice (packBody bit n w) w k) = wordValue bit n w k := by
  have hlt := wordValue_lt bit n k w
  rw [wbits_eq, pow_mul] at hlt
  rw [wordSlice_packBody hk, le_leBytes_of_lt hlt]

/-- What a packed body reads: the bit below `n`, 0 from `n` on. -/
theorem getBit_packBody (bit : Nat → Bool) (n : Nat) (w : WordWidth) (i : Nat) :
    getBit (packBody bit n w) w i = (decide (i < n) && bit i) := by
  by_cases hi : i < wordCount n w * wbits w
  · have hword : i / wbits w < wordCount n w := (Nat.div_lt_iff_lt_mul (wbits_pos w)).2 hi
    have hoff := Nat.mod_lt i (wbits_pos w)
    rw [getBit_eq_testBit, le_wordSlice_packBody hword, wordValue, testBit_wordBits le_rfl hoff,
      Nat.div_add_mod', decide_eq_true hoff, Bool.true_and]
  · have hn : ¬ i < n := fun h => hi (h.trans_le (cdiv_mul_ge n (wbits_pos w)))
    have hbeyond : (packBody bit n w).length ≤ byteIndex i w := by
      rwa [packBody_length, ← not_lt, byteIndex_lt_requiredBytes]
    rw [getBit_beyond hbeyond, decide_eq_false hn, Bool.false_and]

theorem getBit_packBody_padding (bit : Nat → Bool) {n i : Nat} (w : WordWidth) (h : n ≤ i) :
    getBit (packBody bit n w) w i = false := by
  rw [getBit_packBody, decide_eq_false h.not_gt, Bool.false_and]

/-- A body of the right length that reads the bits below `n`, and 0 from `n` on, is the packed
one. -/
theorem eq_packBody {body : List Byte} (hlen : body.length = requiredBytes n w)
    (h : ∀ i, getBit body w i = (decide (i < n) && bit i)) : body = packBody bit n w :=
  body_ext (hlen.trans (packBody_length ..).symm) fun i => (h i).trans (getBit_packBody ..).symm

/-! ## The statements -/

/-- Settles O13: the byte-level form reads what the packed body reads, and each word of the packed
body is its value. -/
theorem packingFormsAgree : Obligations.PackingFormsAgree := by
  refine fun bit n w => ⟨packBody_length bit n w, ?_, fun k hk => ?_,
    fun i => getBit_packBody_padding bit w⟩
  · exact (eq_packBody (byteLevelBody_length ..) (getBit_byteLevelBody bit n w)).symm
  · rw [le_wordSlice_packBody hk, wordValue, wordBits_eq_sum]

/-- Settles O14, from what a packed body reads. -/
theorem packedBitsReadBack : Obligations.PackedBitsReadBack := by
  refine fun bit n w => ⟨fun i hi => ?_, ?_⟩
  · rw [getBit_packBody, decide_eq_true hi, Bool.true_and]
  · rw [paddingNonZero_eq_false_iff (packBody_length ..)]
    exact fun i => getBit_packBody_padding bit w

/-- Settles O15: both bodies read the same at every index, so they are equal. -/
theorem packingIsCanonical : Obligations.PackingIsCanonical := by
  refine fun fmt fmt' a b n w h => eq_packBody (packBody_length ..) fun i => ?_
  rw [getBit_packBody]
  by_cases hi : i < n
  · rw [h i hi]
  · simp [hi]

/-- Settles O16: a STORE output is the packed body of the bits read, and a clean body reads as its
own packed body does. -/
theorem unpackedOutput : Obligations.UnpackedOutput := by
  intro body n w hlen
  obtain ⟨hback, _⟩ := packedBitsReadBack (getBit body w) n w
  refine ⟨paddingNonZero_iff body n w, hback, fun i => getBit_packBody_padding _ w,
    fun hclean => ?_, outBytes_length .lane .., fun i hi => ?_⟩
  · rw [paddingNonZero_eq_false_iff hlen] at hclean
    refine (eq_packBody hlen fun i => ?_).symm
    by_cases hi : i < n
    · simp [hi]
    · simpa [hi] using hclean i (not_lt.1 hi)
  · simp [outBytes, hi, laneByte]

end Sys2Proof.Machine
end

section
/-!
SUPPORT. The commands of the bit packer (`42_bit_packer.md` R152, R156): their plans succeed under
their checks, and their sizes fit the result registers.
-/

namespace Sys2Proof.Machine

variable {s : State} {w : WordWidth} {fmt : MemFormat}

theorem planPack_of_checks
    (hin : s.inRange s.src.toNat (formatSize fmt s.len.toNat w))
    (hout : s.inRange s.dst.toNat (requiredBytes s.len.toNat w))
    (hsep : ¬ overlap s.src.toNat (formatSize fmt s.len.toNat w) s.dst.toNat
      (requiredBytes s.len.toNat w)) :
    planPack w fmt s = .ok ⟨s.dst.toNat,
      packBody (inBits fmt
        (Memory.readBytes s.mem s.src.toNat (formatSize fmt s.len.toNat w)) w) s.len.toNat w,
      none, some (resWord (requiredBytes s.len.toNat w), 0)⟩ := by
  rw [planPack, if_neg (not_not.2 hin), if_neg (not_not.2 hout), if_neg hsep]

theorem planUnpack_of_checks {strict : Bool}
    (hin : s.inRange s.src.toNat s.srcAvail.toNat)
    (hbody : requiredBytes s.len.toNat w ≤ s.srcAvail.toNat)
    (hclean : strict = true → paddingNonZero
      (Memory.readBytes s.mem s.src.toNat (requiredBytes s.len.toNat w)) s.len.toNat w = false)
    (hout : s.inRange s.dst.toNat (formatSize fmt s.len.toNat w))
    (hsep : ¬ overlap s.src.toNat (requiredBytes s.len.toNat w) s.dst.toNat
      (formatSize fmt s.len.toNat w)) :
    planUnpack w strict fmt s = .ok ⟨s.dst.toNat,
      outBytes fmt (Memory.readBytes s.mem s.src.toNat (requiredBytes s.len.toNat w))
        s.len.toNat w,
      none,
      some (resWord (requiredBytes s.len.toNat w), resWord (formatSize fmt s.len.toNat w))⟩ := by
  have hpass : ¬ (strict && paddingNonZero
      (Memory.readBytes s.mem s.src.toNat (requiredBytes s.len.toNat w)) s.len.toNat w) = true := by
    rw [Bool.and_eq_true, not_and, Bool.not_eq_true]
    exact hclean
  rw [planUnpack, if_neg (not_not.2 hin), if_neg hbody.not_gt, if_neg hpass,
    if_neg (not_not.2 hout), if_neg hsep]

theorem requiredBytes_len_lt (s : State) (w : WordWidth) : requiredBytes s.len.toNat w < 2 ^ 32 :=
  (requiredBytes_le s.len.isLt).trans_lt (by decide)

theorem formatSize_len_lt (fmt : MemFormat) (s : State) (w : WordWidth) :
    formatSize fmt s.len.toNat w < 2 ^ 32 := by
  cases fmt with
  | lane => exact s.len.isLt
  | store => exact requiredBytes_len_lt s w

/-! ## The statements -/

/-- Settles O24: under its checks, the plan of PACK is the packed body at DST. -/
theorem packWritesBody : Obligations.PackWritesBody := by
  intro w fmt s n ss rb hin hout hsep
  exact ⟨_, exec_of_plan_ok (i := .pack w fmt) (planPack_of_checks hin hout hsep),
    finish_ok_ended _, finish_sameSurroundings _, rfl, resWord_toNat (requiredBytes_len_lt s w),
    rfl, finish_ok_stored _⟩

/-- Settles O25: under its checks, the plan of UNPACK is the output of the body at DST. -/
theorem unpackWritesBits : Obligations.UnpackWritesBits := by
  intro w strict fmt s n rb ds body hin hbody hclean hout hsep
  exact ⟨_,
    exec_of_plan_ok (i := .unpack w strict fmt) (planUnpack_of_checks hin hbody hclean hout hsep),
    finish_ok_ended _, finish_sameSurroundings _, rfl, resWord_toNat (requiredBytes_len_lt s w),
    resWord_toNat (formatSize_len_lt fmt s w), finish_ok_stored _⟩

end Sys2Proof.Machine
end

section
/-!
SUPPORT. `DecodeFn` on a byte sequence (`43_bitseq_codec.md` R173 to R180): what it answers once its
first bytes are read as a length, hence what it answers on a written prefix and any bytes after it; the
statements about encodings are consequences.
-/

namespace Sys2Proof.Machine

variable {addrW avail n p : Nat} {w : WordWidth} {strict : Bool} {v v' : List Byte}

/-! ## What follows a prefix -/

theorem decodeFrom_of_prefix {bytes : Nat → Nat → List Byte}
    (h : lenDecode (bytes 0 (min avail maxPrefixBytes)) = .ok (n, p)) :
    decodeFrom addrW avail bytes w strict =
      if 2 ^ addrW < requiredBytes n w then .error .lengthOverflow
      else if avail - p < requiredBytes n w then .error .truncatedBody
      else if strict && paddingNonZero (bytes p (requiredBytes n w)) n w then
        .error .nonZeroPadding
      else .ok ⟨n, p, bytes p (requiredBytes n w)⟩ := by
  rw [decodeFrom, h]

theorem decodeFrom_of_prefix_error {bytes : Nat → Nat → List Byte} {e : ErrorCode}
    (h : lenDecode (bytes 0 (min avail maxPrefixBytes)) = .error e) :
    decodeFrom addrW avail bytes w strict = .error e := by
  rw [decodeFrom, h]

/-- The prefix of a byte sequence is read as if all its bytes were looked at. -/
theorem lenDecode_take_min_length (v : List Byte) :
    lenDecode ((v.drop 0).take (min v.length maxPrefixBytes)) = lenDecode v := by
  rw [List.drop_zero, min_comm, ← List.take_eq_take_min, lenDecode_take_maxPrefixBytes]

theorem decodeFn_of_prefix (h : lenDecode v = .ok (n, p)) :
    decodeFn addrW v w strict =
      if 2 ^ addrW < requiredBytes n w then .error .lengthOverflow
      else if v.length - p < requiredBytes n w then .error .truncatedBody
      else if strict && paddingNonZero ((v.drop p).take (requiredBytes n w)) n w then
        .error .nonZeroPadding
      else .ok ⟨n, p, (v.drop p).take (requiredBytes n w)⟩ :=
  decodeFrom_of_prefix ((lenDecode_take_min_length v).trans h)

theorem decodeFn_of_prefix_error {e : ErrorCode} (h : lenDecode v = .error e) :
    decodeFn addrW v w strict = .error e :=
  decodeFrom_of_prefix_error ((lenDecode_take_min_length v).trans h)

/-- The answer on a written prefix and the bytes `u` after it. -/
theorem decodeFn_lenEncode_append (hn : n < 2 ^ 32) (u : List Byte) :
    decodeFn addrW (lenEncode n ++ u) w strict =
      if 2 ^ addrW < requiredBytes n w then .error .lengthOverflow
      else if u.length < requiredBytes n w then .error .truncatedBody
      else if strict && paddingNonZero (u.take (requiredBytes n w)) n w then
        .error .nonZeroPadding
      else .ok ⟨n, (lenEncode n).length, u.take (requiredBytes n w)⟩ := by
  obtain ⟨hread, _⟩ := prefixRoundTrip n hn
  rw [decodeFn_of_prefix (hread u), List.length_append, Nat.add_sub_cancel_left, List.drop_left]

/-- A whole body behind its prefix, whatever follows it, is the answer unless the strict check finds
a bit in its padding. -/
theorem decodeFn_lenEncode_body (hn : n < 2 ^ 32) (hfits : requiredBytes n w ≤ 2 ^ addrW)
    {body : List Byte} (hlen : body.length = requiredBytes n w) (t : List Byte) :
    decodeFn addrW (lenEncode n ++ (body ++ t)) w strict =
      if strict && paddingNonZero body n w then .error .nonZeroPadding
      else .ok ⟨n, (lenEncode n).length, body⟩ := by
  rw [decodeFn_lenEncode_append hn, if_neg hfits.not_gt, if_neg (by simp [hlen]),
    List.take_left' hlen]

theorem decodeFn_encodingOf_append (hn : n < 2 ^ 32) (hfits : requiredBytes n w ≤ 2 ^ addrW)
    (bit : Nat → Bool) (t : List Byte) :
    decodeFn addrW (encodingOf bit n w ++ t) w strict
      = .ok ⟨n, (lenEncode n).length, packBody bit n w⟩ := by
  obtain ⟨_, hclean⟩ := packedBitsReadBack bit n w
  rw [encodingOf, List.append_assoc, decodeFn_lenEncode_body hn hfits (packBody_length ..), hclean,
    Bool.and_false, if_neg Bool.false_ne_true]

/-- A byte sequence that starts with an encoding decodes to it. -/
theorem decodeFn_of_take_eq_encodingOf (hn : n < 2 ^ 32) (hfits : requiredBytes n w ≤ 2 ^ addrW)
    {bit : Nat → Bool} {k : Nat} (h : v.take k = encodingOf bit n w) :
    decodeFn addrW v w strict = .ok ⟨n, (lenEncode n).length, packBody bit n w⟩ := by
  rw [← List.take_append_drop k v, h, decodeFn_encodingOf_append hn hfits]

/-! ## Only the bytes consumed matter -/

/-- A prefix that is read depends on the bytes it takes alone. -/
theorem lenDecode_ok_congr (h : lenDecode v = .ok (n, p)) (heq : v'.take p = v.take p) :
    lenDecode v' = .ok (n, p) := by
  cases v with
  | nil => cases h
  | cons b0 rest =>
    obtain ⟨_, rfl⟩ := lenDecode_cons_ok h
    obtain ⟨k, hk⟩ := Nat.exists_eq_add_of_le' (prefixBytesFrom_bounds b0).1
    cases v' with
    | nil => simp [hk] at heq
    | cons b1 rest' =>
      rw [hk, List.take_succ_cons, List.take_succ_cons] at heq
      obtain ⟨rfl, hrest⟩ := List.cons.inj heq
      have hvalue : prefixValue b1 rest' = prefixValue b1 rest :=
        prefixValue_congr (by rwa [hk])
      have hlen := congrArg List.length hrest
      rw [List.length_take, List.length_take] at hlen
      have htrunc : rest'.length + 1 < prefixBytesFrom b1 ↔
          rest.length + 1 < prefixBytesFrom b1 := by omega
      rw [← h, lenDecode_cons, lenDecode_cons, hvalue, if_congr htrunc rfl rfl]

/-- A decode that succeeds depends on the prefix and the body alone (R177). -/
theorem decodeFn_ok_congr {d : Decoded} (h : decodeFn addrW v w strict = .ok d)
    (heq : v'.take (d.p + requiredBytes d.n w) = v.take (d.p + requiredBytes d.n w)) :
    decodeFn addrW v' w strict = .ok d := by
  obtain ⟨hread, _, hbody, _, _⟩ := decodeFrom_ok h
  rw [lenDecode_take_min_length] at hread
  have hprefix : v'.take d.p = v.take d.p := by
    simpa [List.take_take] using congrArg (List.take d.p) heq
  have hafter : (v'.drop d.p).take (requiredBytes d.n w) =
      (v.drop d.p).take (requiredBytes d.n w) := by
    rw [List.take_drop, List.take_drop, heq]
  have hlen := congrArg List.length heq
  rw [List.length_take, List.length_take] at hlen
  have hshort : v'.length - d.p < requiredBytes d.n w ↔ v.length - d.p < requiredBytes d.n w := by
    omega
  rw [← h, decodeFn_of_prefix hread, decodeFn_of_prefix (lenDecode_ok_congr hread hprefix), hafter,
    if_congr hshort rfl rfl]

/-! ## The statements -/

/-- Settles O17: the body found is the packed one. -/
theorem sequenceRoundTrip : Obligations.SequenceRoundTrip := by
  intro addrW w n bit strict t hn hfits
  obtain ⟨hback, _⟩ := packedBitsReadBack bit n w
  exact ⟨packBody bit n w, decodeFn_encodingOf_append hn hfits bit t, hback⟩

/-- Without a body, the last byte is the prefix's. -/
theorem decodeFn_dropLast_of_no_body (hn : n < 2 ^ 32) (bit : Nat → Bool)
    (h : requiredBytes n w = 0) :
    decodeFn addrW (encodingOf bit n w).dropLast w strict = .error .truncatedLengthPrefix := by
  have hnil : packBody bit n w = [] := List.eq_nil_of_length_eq_zero (by rw [packBody_length, h])
  have hpos := List.length_pos_iff.2 (lenEncode_ne_nil hn)
  obtain ⟨_, hcut⟩ := prefixRoundTrip n hn
  rw [encodingOf, hnil, List.append_nil, List.dropLast_eq_take]
  exact decodeFn_of_prefix_error (hcut _ (by omega))

/-- With a body, the last byte is the body's, which is then too short. -/
theorem decodeFn_dropLast_of_body (hn : n < 2 ^ 32) (bit : Nat → Bool)
    (h : requiredBytes n w ≠ 0) :
    decodeFn addrW (encodingOf bit n w).dropLast w strict =
      .error (if 2 ^ addrW < requiredBytes n w then .lengthOverflow else .truncatedBody) := by
  have hlen := packBody_length bit n w
  have hne : packBody bit n w ≠ [] := by
    rw [← List.length_pos_iff]
    omega
  have hshort : (packBody bit n w).dropLast.length < requiredBytes n w := by
    rw [List.length_dropLast]
    omega
  rw [encodingOf, List.dropLast_append_of_ne_nil hne, decodeFn_lenEncode_append hn, if_pos hshort,
    apply_ite Except.error]

/-- Settles O18: the byte cut off is the last of the body or, where there is none, of the prefix. -/
theorem truncatedEncodingFails : Obligations.TruncatedEncodingFails := by
  intro addrW w n bit strict hn
  by_cases hbody : requiredBytes n w = 0
  · rw [decodeFn_dropLast_of_no_body hn bit hbody, if_pos hbody]
    exact ⟨fun _ => rfl, _, rfl⟩
  · rw [decodeFn_dropLast_of_body hn bit hbody, if_neg hbody]
    exact ⟨fun hfits => by rw [if_neg hfits.not_gt], _, rfl⟩

/-- The body of the all-false sequence is all zero bytes. -/
theorem packBody_eq_zeros {bit : Nat → Bool} (h : ∀ i, bit i = false) (n : Nat) (w : WordWidth) :
    packBody bit n w = List.replicate (requiredBytes n w) 0 := by
  refine body_ext (w := w) (by simp) fun i => ?_
  rw [getBit_packBody, h i, Bool.and_false, getBit_zeros]

/-- Settles O19: a body of the right length decodes under any width, up to the strict check, and zero
bytes read 0 under any. -/
theorem widthMismatchIsNotDetected : Obligations.WidthMismatchIsNotDetected := by
  refine ⟨fun addrW w v n bit hn hsame hfits => ?_, fun bit => ?_⟩
  · have hlen : (packBody bit n w).length = requiredBytes n v := by rw [packBody_length, hsame]
    have hdecode (strict : Bool) := decodeFn_lenEncode_body (strict := strict) hn hfits hlen []
    rw [List.append_nil, ← encodingOf] at hdecode
    refine ⟨by simpa using hdecode false, by simpa using hdecode true, fun hfalse => ?_⟩
    have hclear (i : Nat) : getBit (packBody bit n w) v i = false := by
      rw [packBody_eq_zeros hfalse, getBit_zeros]
    exact ⟨(paddingNonZero_eq_false_iff hlen).2 fun i _ => hclear i, hclear⟩
  · simp only [encodingOf_length]
    decide

end Sys2Proof.Machine
end

section
/-!
SUPPORT. ENCODE and DECODE on the machine (`43_bitseq_codec.md` R172, R176 to R178): their plans
succeed under their checks, DECODE answers as `DecodeFn` does on the available bytes, and what these
commands store reads back.
-/

namespace Sys2Proof.Machine

variable {s t : State} {w : WordWidth} {strict : Bool} {fmt : MemFormat}

/-! ## Reading MEM -/

theorem Memory.drop_readBytes (m : Memory) (a n k : Nat) :
    (Memory.readBytes m a n).drop k = Memory.readBytes m (a + k) (n - k) := by
  refine List.ext_getElem (by simp) fun j _ _ => ?_
  simp [Memory.readBytes, Nat.add_assoc]

theorem Memory.readBytes_congr {m m' : Memory} {a n : Nat}
    (h : ∀ c, a ≤ c → c < a + n → Memory.read m c = Memory.read m' c) :
    Memory.readBytes m a n = Memory.readBytes m' a n :=
  List.map_congr_left fun _ hj => h _ (Nat.le_add_right ..)
    (Nat.add_lt_add_left (List.mem_range.1 hj) a)

/-- What was stored reads back. -/
theorem Stored.readBytes {a : Nat} {v : List Byte} (h : Stored s t a v) :
    Memory.readBytes t.mem a v.length = v := by
  obtain ⟨hin, _⟩ := h
  refine List.ext_getElem (by simp) fun j _ hj => ?_
  simpa [Memory.readBytes] using hin j hj

/-- Where the same bytes were stored, MEM reads the same. -/
theorem Stored.read_eq {s' t' : State} {a c : Nat} {v : List Byte} (h : Stored s t a v)
    (h' : Stored s' t' a v) (hle : a ≤ c) (hlt : c < a + v.length) :
    Memory.read t.mem c = Memory.read t'.mem c := by
  obtain ⟨j, rfl⟩ := Nat.exists_eq_add_of_le hle
  obtain ⟨hin, _⟩ := h
  obtain ⟨hin', _⟩ := h'
  rw [hin j (by omega), hin' j (by omega)]

/-- The first bytes available, as far as there are so many. -/
theorem take_availableBytes {k : Nat} (h : k ≤ s.srcAvail.toNat) :
    (availableBytes s).take k = Memory.readBytes s.mem s.src.toNat k := by
  rw [availableBytes, Memory.take_readBytes, min_eq_right h]

/-- The first `k` available bytes are the same over a MEM that agrees on them. -/
theorem take_availableBytes_congr {m : Memory} {k : Nat}
    (h : ∀ c, s.src.toNat ≤ c → c < s.src.toNat + k → Memory.read m c = Memory.read s.mem c) :
    (availableBytes { s with mem := m }).take k = (availableBytes s).take k := by
  rw [availableBytes, availableBytes, Memory.take_readBytes, Memory.take_readBytes]
  exact Memory.readBytes_congr fun c hle hlt =>
    h c hle (hlt.trans_le (Nat.add_le_add_left (min_le_right ..) _))

/-- DECODE's way of asking for bytes gives what `DecodeFn` gives on all the available ones: within
them, `k` bytes from an offset on are the same bytes. -/
theorem decodeFrom_readBytes :
    decodeFrom s.params.addrW s.srcAvail.toNat
        (fun off k => Memory.readBytes s.mem (s.src.toNat + off) k) w strict
      = decodeFn s.params.addrW (availableBytes s) w strict := by
  have hprefix := lenDecode_readBytes_min (s := s)
  cases hread : lenDecode (availableBytes s) with
  | error e =>
    rw [decodeFn_of_prefix_error hread, decodeFrom_of_prefix_error (hprefix.trans hread)]
  | ok np =>
    obtain ⟨n, p⟩ := np
    rw [decodeFn_of_prefix hread, decodeFrom_of_prefix (hprefix.trans hread), availableBytes,
      Memory.readBytes_length, Memory.drop_readBytes, Memory.take_readBytes]
    by_cases hshort : s.srcAvail.toNat - p < requiredBytes n w
    · rw [if_pos hshort, if_pos hshort]
    · rw [min_eq_right (not_lt.1 hshort)]

/-! ## The bits of an output -/

/-- Each logical bit of an output is the body's. -/
theorem inBits_outBytes (fmt : MemFormat) (body : List Byte) (w : WordWidth) {n i : Nat}
    (h : i < n) : inBits fmt (outBytes fmt body n w) w i = getBit body w i := by
  cases fmt with
  | lane => cases hbit : getBit body w i <;> simp [inBits, outBytes, List.getD, h, hbit, laneByte]
  | store => rw [inBits, outBytes, getBit_packBody, decide_eq_true h, Bool.true_and]

/-! ## The plans of ENCODE and DECODE -/

theorem planEncode_of_checks
    (hin : s.inRange s.src.toNat (formatSize fmt s.len.toNat w))
    (hout : s.inRange s.dst.toNat ((lenEncode s.len.toNat).length + requiredBytes s.len.toNat w))
    (hsep : ¬ overlap s.src.toNat (formatSize fmt s.len.toNat w) s.dst.toNat
      ((lenEncode s.len.toNat).length + requiredBytes s.len.toNat w)) :
    planEncode w fmt s = .ok ⟨s.dst.toNat,
      encodingOf (inBits fmt
        (Memory.readBytes s.mem s.src.toNat (formatSize fmt s.len.toNat w)) w) s.len.toNat w,
      none,
      some (resWord ((lenEncode s.len.toNat).length + requiredBytes s.len.toNat w),
        resWord (lenEncode s.len.toNat).length)⟩ := by
  rw [planEncode, if_neg (not_not.2 hin), if_neg (not_not.2 hout), if_neg hsep]

theorem planDecode_of_checks {d : Decoded}
    (hin : s.inRange s.src.toNat s.srcAvail.toNat)
    (hdec : decodeFn s.params.addrW (availableBytes s) w strict = .ok d)
    (hout : s.inRange s.dst.toNat (formatSize fmt d.n w))
    (hsep : ¬ overlap s.src.toNat (d.p + requiredBytes d.n w) s.dst.toNat (formatSize fmt d.n w)) :
    planDecode w strict fmt s = .ok ⟨s.dst.toNat, outBytes fmt d.body d.n w, some (resWord d.n),
      some (resWord (d.p + requiredBytes d.n w), resWord d.p)⟩ := by
  rw [planDecode, if_neg (not_not.2 hin), decodeFrom_readBytes, hdec]
  simp only [if_neg (not_not.2 hout), if_neg hsep]

/-- What `DecodeFn` finds fits the registers: a count below `2 ^ 32` and a prefix of at most 68
bytes. -/
theorem decodeFn_ok_bounds {addrW : Nat} {v : List Byte} {d : Decoded}
    (h : decodeFn addrW v w strict = .ok d) :
    d.n < 2 ^ 32 ∧ d.p < 2 ^ 32 ∧ d.p + requiredBytes d.n w < 2 ^ 32 := by
  obtain ⟨hread, _⟩ := decodeFrom_ok h
  have hn := lenDecode_ok_lt hread
  have hp : d.p ≤ 68 := lenDecode_ok_le_maxPrefixBytes hread
  have hbody := requiredBytes_le (w := w) hn
  omega

/-- A command that ends with code 0 has carried out its plan. -/
theorem plan_ok_of_ecode_zero {i : Instr} (h : exec i s = .next t) (hcode : t.ecode = 0) :
    ∃ f, plan i s = .ok f := by
  rw [exec_eq_finish] at h
  cases h
  obtain ⟨e, _, hfin⟩ | ⟨f, hplan, _⟩ := finish_cases s (plan i s)
  · rw [hfin] at hcode
    exact absurd hcode (codeOf_ne_zero e)
  · exact ⟨f, hplan⟩

/-! ## The statements -/

/-- Settles O26: under its checks, the plan of ENCODE is the encoding at DST. -/
theorem encodeWritesSequence : Obligations.EncodeWritesSequence := by
  intro w fmt s n p rb ss hin hout hsep
  have hp : p ≤ 5 := by
    have hlen : p = _ := lenEncode_length s.len.isLt
    split_ifs at hlen <;> omega
  have hrb : rb ≤ 2 ^ 29 := requiredBytes_le s.len.isLt
  exact ⟨_, exec_of_plan_ok (i := .encode w fmt) (planEncode_of_checks hin hout hsep),
    finish_ok_ended _, finish_sameSurroundings _, rfl, resWord_toNat (show p + rb < _ by omega),
    resWord_toNat (show p < _ by omega), finish_ok_stored _⟩

/-- Settles O27: under its checks, the plan of DECODE is the output of the body found at DST. -/
theorem decodeReadsSequence : Obligations.DecodeReadsSequence := by
  intro w strict fmt s d used ds hin hdec hout hsep
  obtain ⟨hn, hp, hused⟩ := decodeFn_ok_bounds hdec
  exact ⟨_,
    exec_of_plan_ok (i := .decode w strict fmt) (planDecode_of_checks hin hdec hout hsep),
    finish_ok_ended _, finish_sameSurroundings _, resWord_toNat hn, resWord_toNat hused,
    resWord_toNat hp, finish_ok_stored _⟩

/-- Settles O32: over a MEM that agrees on the bytes consumed, `DecodeFn` finds the same, and then
DECODE's other checks and its output are the same. -/
theorem decodeReadsOnlyConsumedBytes : Obligations.DecodeReadsOnlyConsumedBytes := by
  intro w strict fmt s t m hexec hcode hagree
  obtain ⟨f, hplan⟩ := plan_ok_of_ecode_zero hexec hcode
  obtain ⟨d, hdec, hin, hout, hsep, _⟩ := planDecode_ok hplan
  rw [decodeFrom_readBytes] at hdec
  obtain ⟨t', ht, _, _, hlen, hres0, hres1, hstored⟩ :=
    decodeReadsSequence w strict fmt s d hin hdec hout hsep
  obtain rfl := Host.Outcome.next.inj (hexec.symm.trans ht)
  have hsame : (availableBytes { s with mem := m }).take (d.p + requiredBytes d.n w) =
      (availableBytes s).take (d.p + requiredBytes d.n w) :=
    take_availableBytes_congr (by rwa [hres0] at hagree)
  obtain ⟨u, hu, ⟨_, _, hzero, _⟩, _, hlen', hres0', hres1', hstored'⟩ :=
    decodeReadsSequence w strict fmt { s with mem := m } d hin (decodeFn_ok_congr hdec hsame) hout
      hsep
  refine ⟨u, hu, hzero, BitVec.eq_of_toNat_eq (hlen'.trans hlen.symm),
    BitVec.eq_of_toNat_eq (hres0'.trans hres0.symm),
    BitVec.eq_of_toNat_eq (hres1'.trans hres1.symm), fun c hle hlt => ?_⟩
  rw [hlen, ← outBytes_length fmt d.body] at hlt
  exact hstored'.read_eq hstored hle hlt

/-- Settles O33: the bytes available start with the encoding, so DECODE finds ENCODE's body, whose bits
are those of ENCODE's input. -/
theorem encodeThenDecode : Obligations.EncodeThenDecode := by
  intro w fmt fmt' strict s t u hexec hcode hparams hsrc havail hin hagree hout hsep
  obtain ⟨f, hplan⟩ := plan_ok_of_ecode_zero hexec hcode
  obtain ⟨hin', hout', hsep', _⟩ := planEncode_ok hplan
  obtain ⟨t', ht, _, _, _, hres0, hres1, hstored⟩ := encodeWritesSequence w fmt s hin' hout' hsep'
  obtain rfl := Host.Outcome.next.inj (hexec.symm.trans ht)
  set bit := inBits fmt (Memory.readBytes s.mem s.src.toNat (formatSize fmt s.len.toNat w)) w
  have hbytes : (availableBytes u).take t.res0.toNat = encodingOf bit s.len.toNat w := by
    rw [take_availableBytes havail, hsrc, Memory.readBytes_congr hagree, hres0]
    simpa [encodingOf] using hstored.readBytes
  have hfits : requiredBytes s.len.toNat w ≤ 2 ^ u.params.addrW := by
    have hmem : u.src.toNat + u.srcAvail.toNat ≤ 2 ^ u.params.addrW := hin
    omega
  have hdec := decodeFn_of_take_eq_encodingOf (strict := strict) s.len.isLt hfits hbytes
  rw [hres0] at hsep
  obtain ⟨v, hv, hended, _, hlen, hused, hp, hstored'⟩ :=
    decodeReadsSequence w strict fmt' u _ hin hdec hout hsep
  refine ⟨v, hv, hended, BitVec.eq_of_toNat_eq hlen, BitVec.eq_of_toNat_eq (hused.trans hres0.symm),
    BitVec.eq_of_toNat_eq (hp.trans hres1.symm), fun i hi => ?_⟩
  have hread := hstored'.readBytes
  rw [outBytes_length] at hread
  rw [hread, inBits_outBytes fmt' _ w hi, getBit_packBody, decide_eq_true hi, Bool.true_and]

end Sys2Proof.Machine
end

section
/-!
SUPPORT. The control command (`44_control.md` R190): the interrupt a completion raises, and that NOP's
plan is the effect that writes nothing.
-/

namespace Sys2Proof.Machine

variable {s : State}

/-- A completion sets DONE and keeps IE, so IRQ is IE, whatever the code (`44_control.md` R190,
`60_exceptions.md` R210). -/
@[simp] theorem finish_irq (r : Except ErrorCode Effect) : (s.finish r).irq = s.ie := by
  obtain ⟨_, _, hie, _⟩ := finish_sameSurroundings (s := s) r
  rw [State.irq, hie, finish_done, Bool.and_true]

/-- Settles O20: the plan of NOP has no condition and names no output, no LEN and no results. -/
theorem nopCompletes : Obligations.NopCompletes := by
  refine ⟨by decide, fun s => ?_⟩
  exact ⟨_, exec_of_plan_ok (i := .nop) rfl, finish_ok_ended _, finish_sameSurroundings _, rfl, rfl,
    rfl, rfl, finish_irq _⟩

end Sys2Proof.Machine
end

section
/-!
SUPPORT. The order of checks (`60_exceptions.md` R202): a plan's error is the first check of its
command's list that fails. `finish_check` compares one check of a plan with one of the list; the
plan of each command is then walked through, check by check.
-/

namespace Sys2Proof.Machine

variable {s : State} {w : WordWidth} {strict : Bool} {fmt : MemFormat}
  {v : List Byte} {e : ErrorCode} {rest : List (Bool × ErrorCode)}

/-! ## One check -/

/-- A plan's next check answers as the list's does when both test the same condition and the checks
after it answer alike wherever it passes. -/
theorem finish_check {c : Prop} [Decidable c] {b : Bool} {r : Except ErrorCode Effect}
    (hb : b = true ↔ c) (hrest : ¬ c → (s.finish r).ecode = firstCode rest) :
    (s.finish (if c then .error e else r)).ecode = firstCode ((b, e) :: rest) := by
  by_cases hc : c
  · rw [if_pos hc, hb.2 hc]
    rfl
  · rw [if_neg hc, Bool.eq_false_iff.2 (mt hb.1 hc)]
    exact hrest hc

/-- The same for a check on what `DecodeFn` decodes, made before the checks of `next`. -/
theorem finish_bind_check {c : Prop} [Decidable c] {b : Bool} {r : Except ErrorCode Decoded}
    {next : Decoded → Except ErrorCode Effect} (hb : b = true ↔ c)
    (hrest : ¬ c → (s.finish (r.bind next)).ecode = firstCode rest) :
    (s.finish ((if c then .error e else r).bind next)).ecode = firstCode ((b, e) :: rest) := by
  rw [apply_ite fun x => Except.bind x next]
  exact finish_check hb hrest

theorem outOfRange_iff {a k : Nat} : outOfRange s a k = true ↔ ¬ s.inRange a k := by
  rw [outOfRange, decide_eq_true_iff, not_le, State.memSize]

/-! ## The two checks of a prefix -/

theorem lenDecode_error (h : lenDecode v = .error e) :
    e = .truncatedLengthPrefix ∨ e = .lengthOverflow := by
  cases v with
  | nil =>
    cases h
    exact .inl rfl
  | cons b0 rest =>
    rw [lenDecode_cons] at h
    split at h
    · cases h
      exact .inl rfl
    · split at h <;> cases h
      exact .inr rfl

/-- A prefix that is read passes both. -/
theorem firstCode_prefix_ok (np : Nat × Nat) :
    firstCode ((failsWith (.ok np) .truncatedLengthPrefix, .truncatedLengthPrefix) ::
      (failsWith (.ok np) .lengthOverflow, .lengthOverflow) :: rest) = firstCode rest :=
  rfl

@[simp] theorem availableBytes_length : (availableBytes s).length = s.srcAvail.toNat :=
  Memory.readBytes_length ..

/-! ## DECODE after `DecodeFn` -/

/-- What DECODE does with what `DecodeFn` decoded: the output's two checks, then the effect
(`43_bitseq_codec.md` R176). -/
def planDecoded (w : WordWidth) (fmt : MemFormat) (s : State) (d : Decoded) :
    Except ErrorCode Effect :=
  let ds := formatSize fmt d.n w
  let used := d.p + requiredBytes d.n w
  if ¬ s.inRange s.dst.toNat ds then .error .addressRange
  else if overlap s.src.toNat used s.dst.toNat ds then .error .regionOverlap
  else .ok ⟨s.dst.toNat, outBytes fmt d.body d.n w, some (resWord d.n),
    some (resWord used, resWord d.p)⟩

theorem planDecode_eq_bind : planDecode w strict fmt s =
    if ¬ s.inRange s.src.toNat s.srcAvail.toNat then .error .addressRange
    else (decodeFn s.params.addrW (availableBytes s) w strict).bind (planDecoded w fmt s) := by
  rw [planDecode, decodeFrom_readBytes]
  cases decodeFn s.params.addrW (availableBytes s) w strict <;> rfl

/-! ## Each command's checks -/

theorem finish_planLenc_ecode : (s.finish (planLenc s)).ecode = firstCode (checksOf .lenc s) :=
  finish_check outOfRange_iff fun _ => rfl

theorem finish_planLdec_ecode : (s.finish (planLdec s)).ecode = firstCode (checksOf .ldec s) := by
  refine finish_check outOfRange_iff fun _ => ?_
  rw [lenDecode_readBytes_min]
  cases hread : lenDecode (availableBytes s) with
  | error e => obtain rfl | rfl := lenDecode_error hread <;> rfl
  | ok np => rfl

theorem finish_planPack_ecode :
    (s.finish (planPack w fmt s)).ecode = firstCode (checksOf (.pack w fmt) s) :=
  finish_check outOfRange_iff fun _ => finish_check outOfRange_iff fun _ =>
    finish_check decide_eq_true_iff fun _ => rfl

/-- The padding check reads the body alone: by then it is known to be available. -/
theorem finish_planUnpack_ecode :
    (s.finish (planUnpack w strict fmt s)).ecode = firstCode (checksOf (.unpack w strict fmt) s) :=
  finish_check outOfRange_iff fun _ => finish_check decide_eq_true_iff fun hbody =>
    finish_check (by rw [take_availableBytes (not_lt.1 hbody)]) fun _ =>
      finish_check outOfRange_iff fun _ => finish_check decide_eq_true_iff fun _ => rfl

theorem finish_planEncode_ecode :
    (s.finish (planEncode w fmt s)).ecode = firstCode (checksOf (.encode w fmt) s) :=
  finish_check outOfRange_iff fun _ => finish_check outOfRange_iff fun _ =>
    finish_check decide_eq_true_iff fun _ => rfl

theorem finish_planDecode_ecode :
    (s.finish (planDecode w strict fmt s)).ecode =
      firstCode (checksOf (.decode w strict fmt) s) := by
  rw [planDecode_eq_bind]
  refine finish_check outOfRange_iff fun _ => ?_
  cases hread : lenDecode (availableBytes s) with
  | error e =>
    rw [decodeFn_of_prefix_error hread]
    obtain rfl | rfl := lenDecode_error hread <;> rfl
  | ok np =>
    rw [decodeFn_of_prefix hread, availableBytes_length, firstCode_prefix_ok]
    refine finish_bind_check decide_eq_true_iff fun _ =>
      finish_bind_check decide_eq_true_iff fun _ => finish_bind_check Iff.rfl fun _ => ?_
    exact finish_check outOfRange_iff fun _ => finish_check decide_eq_true_iff fun _ => rfl

theorem finish_plan_ecode (i : Instr) (s : State) :
    (s.finish (plan i s)).ecode = firstCode (checksOf i s) := by
  cases i with
  | nop | rbytes => rfl
  | lenc => exact finish_planLenc_ecode
  | ldec => exact finish_planLdec_ecode
  | pack => exact finish_planPack_ecode
  | unpack => exact finish_planUnpack_ecode
  | encode => exact finish_planEncode_ecode
  | decode => exact finish_planDecode_ecode

/-! ## The codes a list can give -/

theorem firstCode_cases (l : List (Bool × ErrorCode)) :
    firstCode l = 0 ∨ ∃ c ∈ l, firstCode l = codeOf c.2 := by
  induction l with
  | nil => exact .inl rfl
  | cons c l ih =>
    obtain ⟨b, e⟩ := c
    cases b with
    | true => exact .inr ⟨(true, e), List.mem_cons_self, rfl⟩
    | false => exact ih.imp_right fun ⟨c, hc, hcode⟩ => ⟨c, List.mem_cons_of_mem _ hc, hcode⟩

theorem codeOf_eq_five_iff : codeOf e = 5 ↔ e = .illegalCommand := by
  cases e <;> decide

theorem checksOf_ne_illegalCommand (i : Instr) (s : State) :
    ∀ c ∈ checksOf i s, c.2 ≠ .illegalCommand := by
  cases i <;> simp [checksOf]

/-- The encode side checks ranges and overlap only. -/
theorem checksOf_encodeSide {i : Instr} (s : State) (hunpack : ∀ w b f, i ≠ .unpack w b f)
    (hdecode : ∀ w b f, i ≠ .decode w b f) (hldec : i ≠ .ldec) :
    ∀ c ∈ checksOf i s, c.2 = .addressRange ∨ c.2 = .regionOverlap := by
  cases i with
  | unpack => exact (hunpack _ _ _ rfl).elim
  | decode => exact (hdecode _ _ _ rfl).elim
  | ldec => exact (hldec rfl).elim
  | nop | lenc | rbytes | pack | encode => simp [checksOf]

/-! ## The statements -/

/-- Settles O28: `exec` finishes with the command's plan, and the engine checks the word before any
plan. -/
theorem checksAreInOrder : Obligations.ChecksAreInOrder := by
  refine ⟨fun i s => ⟨_, exec_eq_finish i s, finish_plan_ecode i s⟩, fun s hbusy hline hill => ?_⟩
  obtain ⟨_, he⟩ := hill
  exact ⟨_, engineStep_of_illegal hbusy hline he, rfl⟩

/-- Settles O30: the code is 0 or that of a check in the command's list, and no list holds another
code. -/
theorem encodeSideHasNoCodecErrors : Obligations.EncodeSideHasNoCodecErrors := by
  intro i s t h
  rw [exec_eq_finish] at h
  cases h
  rw [finish_plan_ecode]
  obtain hzero | ⟨c, hc, hcode⟩ := firstCode_cases (checksOf i s)
  · rw [hzero]
    exact ⟨by decide, by decide, fun _ _ _ => .inl rfl⟩
  · rw [hcode]
    refine ⟨codeOf_le_seven _, mt codeOf_eq_five_iff.1 (checksOf_ne_illegalCommand i s c hc),
      fun hunpack hdecode hldec => .inr ?_⟩
    exact (checksOf_encodeSide s hunpack hdecode hldec c hc).imp (congrArg codeOf) (congrArg codeOf)

end Sys2Proof.Machine
end

section
/-!
SUPPORT. How commands end (`60_exceptions.md` R201, R204, R205): an error leaves everything but
STATUS, a completed command leaves CMD free, and every enabled turn of the engine completes.
-/

namespace Sys2Proof.Machine

variable {s : State}

/-! ## After a command -/

/-- With BUSY 0 a write of CMD is accepted, whatever ECODE, DONE and OVF are (`10_state.md` R35). -/
theorem writeReg_cmd_of_idle (h : s.busy = false) (v : Reg32) : s.writeReg .cmd v = s.accept v :=
  if_neg (Bool.eq_false_iff.1 h)

/-- Settles O29: an error completes the state as it was, and any completion leaves BUSY 0. -/
theorem errorsAreAllOrNothing : Obligations.ErrorsAreAllOrNothing := by
  intro i s
  have hidle := finish_busy (s := s) (plan i s)
  refine ⟨_, exec_eq_finish i s, hidle, fun herr => ?_, fun v => ?_⟩
  · obtain ⟨e, hplan, _⟩ | ⟨f, hplan, _⟩ := finish_cases s (plan i s) <;> rw [hplan] at herr ⊢
    · exact ⟨rfl, rfl, rfl, rfl, finish_sameSurroundings _⟩
    · exact absurd rfl herr
  · rw [writeReg_cmd_of_idle hidle]
    exact ⟨rfl, rfl, rfl⟩

/-! ## The engine's turn -/

/-- The command that ran in `s` has ended in `t` (`60_exceptions.md` R204, R210). -/
def Completed (s t : State) : Prop :=
  t.busy = false ∧ t.done = true ∧ t.ovf = s.ovf ∧ t.cmd = s.cmd ∧ t.irq = s.ie

theorem finish_completed (r : Except ErrorCode Effect) : Completed s (s.finish r) := by
  obtain ⟨hcmd, _⟩ := finish_sameSurroundings (s := s) r
  exact ⟨finish_busy r, finish_done r, finish_ovf r, hcmd, finish_irq r⟩

theorem racedCompletion_completed (i : Instr) : Completed s (racedCompletion i s) :=
  ⟨rfl, rfl, rfl, rfl, Bool.and_true _⟩

/-- An engine that is not enabled is idle (log entry 10). -/
theorem engineStep_of_idle (h : s.busy = false) : engineStep s = .next s := by
  rw [engineStep, h]
  rfl

theorem touchesNonRam_of_plain (h : s.params.nonRam = []) (i : Instr) :
    touchesNonRam i s = false := by
  rw [touchesNonRam, h, List.any_nil]

/-- Settles O36: an illegal word ends by the word check, a raced command in draws, any other by its
plan. -/
theorem engineTurnCompletes : Obligations.EngineTurnCompletes := by
  refine fun s hline hplain => ⟨fun hbusy => ?_, engineStep_of_idle⟩
  cases hword : decode s.cmd with
  | error e =>
    exact ⟨_, engineStep_of_illegal hbusy hline hword, finish_completed (.error .illegalCommand)⟩
  | ok i =>
    refine ⟨_, engineStep_running (running_eq_some.2 ⟨hbusy, hword⟩) hline
      (touchesNonRam_of_plain hplain i), ?_⟩
    split
    · exact racedCompletion_completed i
    · exact finish_completed _

/-- Settles O3: the step is the engine's word check, which completes the state as it was. -/
theorem illegalWordReadsAndWritesNothing : Obligations.IllegalWordReadsAndWritesNothing := by
  intro s m hbusy hline hnext hill
  obtain ⟨e, he⟩ := hill
  rw [step_of_engineNext (s := { s with mem := m }) hnext,
    engineStep_of_illegal (s := State.taken { s with mem := m }) hbusy hline he]
  rfl

end Sys2Proof.Machine
end

section
/-!
SUPPORT. Reset (`70_reset_and_hazards.md` R230 to R232): what ends BUSY, what a reset leaves in the
registers and for how long, and what it leaves of the output of the command it abandons.
-/

namespace Sys2Proof.Machine

variable {i : Instr} {s t : State}

/-! ## What takes BUSY from 1 to 0 -/

/-- A turn of the engine that ends the command was enabled, and sets DONE. -/
theorem engineStep_ends_busy (h : engineStep s = .next t) (hs : s.busy = true)
    (ht : t.busy = false) : s.resetLine = false ∧ t.done = true := by
  obtain rfl | ⟨hline, rfl | ⟨i, rfl | rfl⟩⟩ := engineStep_next_ends h
  · cases hs.symm.trans ht
  · exact ⟨hline, rfl⟩
  · exact ⟨hline, rfl⟩
  · exact ⟨hline, finish_done _⟩

/-- No register write ends a command. -/
theorem writeReg_busy (r : Reg) (v : Reg32) (hs : s.busy = true) :
    (s.writeReg r v).busy = true := by
  obtain ⟨_, hw⟩ | ⟨_, hw⟩ | hw | hw | ⟨_, _, _, _, _, hw⟩ | hw := writeReg_cases r v <;> rw [hw]
  case inr.inl => rfl
  all_goals exact hs

theorem runMove_ends_busy {m : Move} (h : runMove m s = .next t) (hs : s.busy = true)
    (ht : t.busy = false) :
    (m = .engine ∧ s.resetLine = false ∧ t.done = true) ∨ m = .assertReset := by
  have kept (hbusy : t.busy = true) : False := by cases hbusy.symm.trans ht
  cases m with
  | engine => exact .inl ⟨rfl, engineStep_ends_busy h hs ht⟩
  | regRead addr size =>
    obtain ⟨_, rfl⟩ := hostRegRead_next h
    exact (kept hs).elim
  | regWrite addr size v =>
    obtain ⟨_, ⟨_, rfl⟩ | ⟨_, rfl⟩⟩ := hostRegWrite_next h
    · exact (kept hs).elim
    · exact (kept (writeReg_busy _ v hs)).elim
  | memRead a =>
    obtain ⟨_, _, ⟨_, _, _, rfl⟩ | ⟨_, rfl⟩⟩ := hostMemRead_next h <;> exact (kept hs).elim
  | memWrite a b =>
    obtain ⟨_, _, ⟨_, _, _, rfl⟩ | ⟨_, rfl⟩⟩ := hostMemWrite_next h <;> exact (kept hs).elim
  | assertReset => exact .inr rfl
  | releaseReset =>
    cases h
    exact (kept hs).elim

/-- Settles O37: with no move to come the step is the engine's turn; otherwise the move that ends
BUSY heads the list. -/
theorem onlyCompletionOrResetClearsBusy : Obligations.OnlyCompletionOrResetClearsBusy := by
  intro s t hstep hs ht
  obtain ⟨hnil, hengine⟩ | ⟨m, ms, hcons, hmove⟩ := step_next_cases hstep
  · exact .inl ⟨.inl hnil, engineStep_ends_busy hengine hs ht⟩
  · have hhead : s.moves.head? = some m := by rw [hcons, List.head?_cons]
    obtain ⟨rfl, hends⟩ | rfl := runMove_ends_busy (s := { s with moves := ms }) hmove hs ht
    · exact .inl ⟨.inr hhead, hends⟩
    · exact .inr hhead

/-! ## The registers after reset -/

/-- The block as the host sees it after reset (`10_state.md` R44): every register reads 0, BUSY is 0
and IRQ is deasserted. -/
def RegistersZero (s : State) : Prop :=
  (∀ r, s.readReg r = 0) ∧ s.busy = false ∧ s.irq = false

theorem clearRegisters_registersZero (s : State) : RegistersZero s.clearRegisters :=
  ⟨fun r => by cases r <;> rfl, rfl, rfl⟩

/-- Under the invariant an asserted reset holds every register at 0. -/
theorem State.Inv.registersZero (h : s.Inv) (hline : s.resetLine = true) : RegistersZero s := by
  obtain ⟨_, _, _, _, _, hreset⟩ := h
  rw [hreset hline]
  exact clearRegisters_registersZero s

/-- The release of reset changes no register. -/
theorem releaseReset_registersZero (h : releaseReset s = .next t) (hs : RegistersZero s) :
    RegistersZero t := by
  cases h
  exact hs

/-- An asserted reset stays asserted under every move but its release. -/
theorem runMove_resetLine_or_release {m : Move} (h : runMove m s = .next t)
    (hline : s.resetLine = true) : t.resetLine = true ∨ m = .releaseReset := by
  cases m with
  | engine =>
    obtain rfl | ⟨hoff, _⟩ := engineStep_next_ends h
    · exact .inl hline
    · cases hline.symm.trans hoff
  | regRead addr size =>
    obtain ⟨_, rfl⟩ := hostRegRead_next h
    exact .inl hline
  | regWrite addr size v =>
    obtain ⟨_, ⟨_, rfl⟩ | ⟨hoff, _⟩⟩ := hostRegWrite_next h
    · exact .inl hline
    · cases hline.symm.trans hoff
  | memRead a =>
    obtain ⟨_, _, ⟨_, _, _, rfl⟩ | ⟨_, rfl⟩⟩ := hostMemRead_next h <;> exact .inl hline
  | memWrite a b =>
    obtain ⟨_, _, ⟨_, _, _, rfl⟩ | ⟨_, rfl⟩⟩ := hostMemWrite_next h <;> exact .inl hline
  | assertReset => obtain ⟨_, rfl⟩ | ⟨_, _, _, rfl⟩ := assertReset_next h <;> exact .inl rfl
  | releaseReset => exact .inr rfl

/-- Settles O54: a move that leaves reset asserted leaves the invariant's reset values; the only
other one, its release, changes no register. -/
theorem resetHoldsRegisters : Obligations.ResetHoldsRegisters := by
  intro s t hinv hline hstep
  obtain ⟨m, hnext, hmove⟩ := step_next_runMove hstep
  obtain hheld | rfl := runMove_resetLine_or_release hmove hline
  · obtain ⟨hread, hbusy, hirq⟩ := (stepKeepsInvariant s t hinv hstep).registersZero hheld
    exact ⟨hread, hbusy, hirq, fun hoff => by cases hheld.symm.trans hoff⟩
  · obtain ⟨hread, hbusy, hirq⟩ :=
      releaseReset_registersZero hmove (hinv.taken.registersZero hline)
    exact ⟨hread, hbusy, hirq, fun _ => hnext.resolve_right nofun⟩

/-! ## Asserting reset -/

theorem assertReset_of_not_running (h : s.running = none) :
    assertReset s = .next s.clearRegisters := by
  rw [assertReset, h]

theorem assertReset_of_running (hrun : s.running = some i) (hram : touchesNonRam i s = false) :
    assertReset s = .next
      { s.clearRegisters with
        mem := abandonedMemory i s
        draws := s.draws + (abandonedOutput i s).2.length } := by
  simp only [assertReset, hrun, hram, Bool.false_eq_true, if_false]

/-- Settles O53: whether or not a legal command is running, the registers are those of
`clearRegisters`; MEM is not its own only where one is. -/
theorem resetClearsRegisters : Obligations.ResetClearsRegisters := by
  intro s hplain
  obtain ⟨hread, hbusy, hirq⟩ := clearRegisters_registersZero s
  cases hrun : s.running with
  | none =>
    exact ⟨_, assertReset_of_not_running hrun, hread, hbusy, hirq, rfl, rfl, rfl, fun _ => rfl⟩
  | some i =>
    exact ⟨_, assertReset_of_running hrun (touchesNonRam_of_plain hplain i), hread, hbusy, hirq,
      rfl, rfl, rfl, nofun⟩

/-! ## The abandoned output -/

/-- Each mixed byte is drawn between its own new value and what MEM holds at its address. -/
theorem mixBytes_getElem (m : Memory) (k a : Nat) (v : List Byte) {j : Nat} (h : j < v.length) :
    (mixBytes m k a v)[j]'(by rwa [mixBytes_length]) =
      if Config.freeChoice (k + j) then v[j] else Memory.read m (a + j) := by
  induction v generalizing k a j with
  | nil => cases h
  | cons b v ih =>
    cases j with
    | zero => rfl
    | succ j =>
      have hj : j < v.length := Nat.lt_of_succ_lt_succ h
      rw [show k + (j + 1) = k + 1 + j by omega, show a + (j + 1) = a + 1 + j by omega]
      exact ih (k + 1) (a + 1) hj

/-- Where mixed bytes are stored, MEM reads as before or as after storing the new ones. -/
theorem read_writeBytes_mixBytes (m : Memory) (k a : Nat) (v : List Byte) (c : Nat) :
    Memory.read (Memory.writeBytes m a (mixBytes m k a v)) c = Memory.read m c ∨
      Memory.read (Memory.writeBytes m a (mixBytes m k a v)) c =
        Memory.read (Memory.writeBytes m a v) c := by
  by_cases hc : c < a ∨ a + v.length ≤ c
  · exact .inl (Memory.read_writeBytes_outside _ _ _ (by rwa [mixBytes_length]))
  · obtain ⟨j, rfl⟩ := Nat.exists_eq_add_of_le (not_lt.1 (not_or.1 hc).1)
    have hj : j < v.length := by omega
    rw [Memory.read_writeBytes_inside _ _ _ (by rwa [mixBytes_length]), mixBytes_getElem _ _ _ _ hj,
      Memory.read_writeBytes_inside _ _ _ hj]
    exact (ite_eq_or_eq ..).symm

/-- Each byte of MEM that a reset leaves is the one before the abandoned command or the one the
command would have left. -/
theorem abandonedMemory_read (i : Instr) (hraced : s.raced = false) (c : Nat) :
    Memory.read (abandonedMemory i s) c = Memory.read s.mem c ∨
      Memory.read (abandonedMemory i s) c = Memory.read (s.finish (plan i s)).mem c := by
  rw [abandonedMemory, abandonedOutput, if_neg (Bool.eq_false_iff.1 hraced)]
  cases plan i s with
  | error e => exact .inl rfl
  | ok f => exact read_writeBytes_mixBytes s.mem s.draws f.addr f.bytes c

/-- Settles O55: each byte is the old one or the command's, and the command's own frame says that
outside its output the two are the same. -/
theorem resetAbandonsCommand : Obligations.ResetAbandonsCommand := by
  intro s u i hrun hraced hram hexec
  obtain ⟨_, _, _, _, _, hframe⟩ := commandFrame i s u hexec
  rw [exec_eq_finish] at hexec
  cases hexec
  have hmem := abandonedMemory_read i hraced
  exact ⟨_, assertReset_of_running hrun hram, rfl, rfl, rfl, hmem,
    fun c hc => (hmem c).elim id fun hnew => hnew.trans (hframe c hc)⟩

end Sys2Proof.Machine
end
